-- ==== Sys2Proof/Word.lean ====
section
/-!
DEFINITION. The words of the block: a byte (00_scope.md R2), and the 6-bit dispatch word (30_encoding.md R51). Timestamps are
plain numbers kept modulo 2^TIME_W, because TIME_W is a parameter (R5); their arithmetic stands in Machine/Operands.lean.
-/

namespace Sys2Proof

/-- One byte: the width of `partialByte`, of a queue element and of a reply (R2). -/
abbrev Byte := BitVec 8

/-- The vector of guard inputs, bit 5 `lastBit` down to bit 0 `empty` (R51). -/
abbrev DispatchWord := BitVec 6

end Sys2Proof
end

