-- ==== Sys2Proof/Config.lean ====
section
/-!
DEFINITION. What an instance of the block fixes (00_scope.md R1 to R9) and the free values: what the spec leaves open and the
model therefore never chooses.
-/

namespace Sys2Proof

/-- `CAPACITY` (R1): a constant of this hardware. -/
abbrev Config.capacity : Nat := 10

/-- `DATA_BITS` (R2): a constant of this hardware. -/
abbrev Config.dataBits : Nat := 8

/-- The two readings of a push into a full queue (R8). -/
inductive OverrunPolicy where
  | wrapPast     -- push never touches `readIndex`
  | dropOldest   -- the rejected reading of 90_conflicts.md C1
  deriving DecidableEq, Repr

/-- `OVERRUN_POLICY` of this hardware (R8, 90_conflicts.md C1). -/
abbrev Config.overrunPolicy : OverrunPolicy := .wrapPast

/-- The three event sources of the dispatch loop (40_dispatch.md R65, 60_exceptions.md R110). -/
inductive Source where
  | edge     -- (a) the input-line edge
  | sample   -- (b) the sample-deadline timer
  | reply    -- (c) the consumer request
  deriving DecidableEq, Repr

/-- A total order of service of the three sources, the first served first (R7). -/
abbrev ServiceOrder := List Source

/-- Every total order of {EDGE, SAMPLE, REPLY}: `DISPATCH_ORDER = any` (R7). -/
def ServiceOrder.all : List ServiceOrder :=
  [[.edge, .sample, .reply], [.edge, .reply, .sample], [.sample, .edge, .reply],
   [.sample, .reply, .edge], [.reply, .edge, .sample], [.reply, .sample, .edge]]

/-- The OPEN parameters of R9, fixed when the block is built. Their constraints are `Params.Legal` (Machine/Operands.lean). -/
structure Params where
  /-- `BIT_PERIOD`, in ticks (R3). -/
  bitPeriod : Nat
  /-- `TIME_W`, the width of a timestamp (R5). -/
  timeW : Nat
  /-- `JITTER_MAX`, in ticks (R6). -/
  jitterMax : Nat
  /-- `DISPATCH_ORDER`: the admitted orders of service (R7). -/
  dispatchOrder : List ServiceOrder
  deriving DecidableEq, Repr

/-- The defaults of R9; `BIT_PERIOD` has none there and takes the test vectors' 8 (DESIGN CHOICE, log 4). -/
def Params.default : Params :=
  { bitPeriod := 8, timeW := 32, jitterMax := 0, dispatchOrder := ServiceOrder.all }

/-- The draws a run takes its open values from, each by the index State's counter gives. A meaning takes the oracle as an
argument, so that a claim can be made for every one: that is the step RELATION of R64, R67 and R69. -/
structure Oracle where
  /-- Which of the admitted orders serves this iteration (R67). -/
  order : Nat → Nat
  /-- Whether a SAMPLE that may be deferred is deferred in this tick (R69). -/
  defer : Nat → Bool
  /-- A byte the spec calls unspecified (R24, R126). -/
  byte : Nat → Byte
  /-- A time the spec calls unspecified or a draw (R126, R127). -/
  time : Nat → Nat

/-- Free value: the choice among the admitted orders (R67, log 13). -/
opaque Config.freeOrder : Nat → Nat

/-- Free value: whether a deferrable SAMPLE is deferred (R69, log 14). -/
opaque Config.freeDefer : Nat → Bool

/-- Free value: an unspecified byte (R24, R126, log 10, log 20). -/
opaque Config.freeByte : Nat → Byte

/-- Free value: an unspecified time (R126, R127, log 8, log 20). -/
opaque Config.freeTime : Nat → Nat

/-- The oracle `exec` and `step` use: nothing in Lean can say what it answers. -/
def Config.oracle : Oracle :=
  { order := Config.freeOrder, defer := Config.freeDefer, byte := Config.freeByte, time := Config.freeTime }

end Sys2Proof
end

