-- ==== Sys2Proof/Syntax.lean ====
section
/-!
DEFINITION. The operations of the block, one constructor for each row of spec/opcode_table.json (92_eei_decisions.md D22: an
operation stands for an instruction), the words they are read from, and the statements of program text (30_encoding.md R61).
-/

namespace Sys2Proof

/-- One constructor for each row of the opcode table. The four WAIT rows are one operation (R52), each row its own
constructor. -/
inductive Instr where
  | edge                      -- EDGE, R73
  | sampleMid                 -- SAMPLE_MID, R78
  | sampleLast                -- SAMPLE_LAST, R79
  | reply                     -- REPLY, R100
  | waitA                     -- WAIT (a): idle, no edge, no request; R70
  | waitB                     -- WAIT (b): idle, no edge, request pending, queue empty; R70
  | waitC                     -- WAIT (c): receiving, not due, no request; R70
  | waitD                     -- WAIT (d): receiving, not due, request pending, queue empty; R70
  | push (b : Byte)           -- PUSH, operand pushData; R87
  | pop                       -- POP, R88
  | tick (req rxd : Bool)     -- TICK, operands the two bits of the stimulus word; R64
  | request                   -- REQUEST, R98
  | reset                     -- RESET, R125
  deriving DecidableEq, Repr

/-- The handlers the dispatch loop services (R52, R65). -/
inductive Handler where
  | edge
  | sampleMid
  | sampleLast
  | reply
  deriving DecidableEq, Repr

/-- The operation a handler is. -/
def Handler.toInstr : Handler → Instr
  | .edge => .edge
  | .sampleMid => .sampleMid
  | .sampleLast => .sampleLast
  | .reply => .reply

/-- The event source a handler services (R110). -/
def Handler.source : Handler → Source
  | .edge => .edge
  | .sampleMid => .sample
  | .sampleLast => .sample
  | .reply => .reply

/-- The four formats of the opcode table, each the word of one port. -/
inductive Port where
  | dispatch   -- DW6, the dispatch word (R51)
  | queue      -- QC2, the queue command (R56)
  | stimulus   -- SW2, the stimulus word (R55)
  | rst        -- RST1, the reset input (R59)
  deriving DecidableEq, Repr

/-- An operation word as the input list holds it: the word in the low bits of its own byte, the port's tag, and pushData.
The three-byte layout is the model's own (DESIGN CHOICE, log 1). -/
structure OpWord where
  word : Byte
  port : Byte
  data : Byte
  deriving DecidableEq, Repr

/-- Why a word decodes to nothing. -/
inductive DecodeError where
  | truncated          -- fewer than three bytes
  | unknownPort        -- the port's tag names none of the four formats
  | reservedBits       -- a bit above the format's width is 1
  | strayData          -- a data byte on a port that has no pushData
  | queueCommandBoth   -- QC = 0b11, never issued, refused (R56)
  deriving DecidableEq, Repr

/-- A handler that ran, as the event trace writes it (R62). -/
inductive Event where
  | edge
  | sampleMid
  | sampleLast (b : Byte)
  | reply (b : Byte)
  deriving DecidableEq, Repr

/-- A statement of program text (R61). An omitted item of PARAM takes its default there. -/
inductive Statement where
  | param (p w now0 j : Option Nat)   -- PARAM
  | hi (n : Nat)                      -- HI
  | lo (n : Nat)                      -- LO
  | req (t : Nat)                     -- REQ
  | idle (n : Nat)                    -- IDLE
  | frame (b : Byte)                  -- FRAME
  | frameNoStop (b : Byte)            -- FRAME_NOSTOP
  | lowFor (n : Nat)                  -- BREAK
  deriving DecidableEq, Repr

end Sys2Proof
end

