-- ==== Sys2Proof/WellFormed.lean ====
section
/-!
DEFINITION. When an operation word and a program are well formed: each check by name, as a Bool, so that a test can run it.
-/

namespace Sys2Proof

/-- The port a tag names (the model's own tags, log 1). -/
def Port.ofTag (t : Byte) : Option Port :=
  if t = 0 then some .dispatch else if t = 1 then some .queue else if t = 2 then some .stimulus
  else if t = 3 then some .rst else none

/-- The tag of a port. -/
def Port.tag : Port → Byte
  | .dispatch => 0
  | .queue => 1
  | .stimulus => 2
  | .rst => 3

/-- The width in bits of a port's word (R51, R55, R56, R59). -/
def Port.width : Port → Nat
  | .dispatch => 6
  | .queue => 2
  | .stimulus => 2
  | .rst => 1

/-- The tag names a port. -/
def OpWord.knownPort (w : OpWord) : Bool := (Port.ofTag w.port).isSome

/-- No bit above the format's width is set. -/
def OpWord.fits (w : OpWord) : Bool :=
  match Port.ofTag w.port with
  | some p => decide (w.word.toNat < 2 ^ p.width)
  | none => false

/-- A data byte stands on the queue's port only, the one port with a pushData (R56); beside any command but PUSH the queue does not
look at it. -/
def OpWord.dataOnlyOnQueue (w : OpWord) : Bool := w.data == 0 || Port.ofTag w.port == some .queue

/-- The queue command 0b11 is never issued (R56). -/
def OpWord.noPushAndPop (w : OpWord) : Bool := !(Port.ofTag w.port == some .queue && w.word == 3)

/-- Every check of an operation word. -/
def OpWord.wellFormed (w : OpWord) : Bool := w.knownPort && w.fits && w.dataOnlyOnQueue && w.noPushAndPop

/-- The ticks a statement expands to, at bit period `p` (R61). -/
def Statement.ticks (p : Nat) : Statement → Nat
  | .param _ _ _ _ => 0
  | .hi n => n
  | .lo n => n
  | .req _ => 0
  | .idle n => n
  | .frame _ => 10 * p
  | .frameNoStop _ => 9 * p
  | .lowFor n => n

/-- The ticks of a whole program. -/
def Statement.totalTicks (p : Nat) (prog : List Statement) : Nat := (prog.map (Statement.ticks p)).sum

/-- Each REQ names a tick of the program (R61). -/
def Statement.requestsInside (p : Nat) (prog : List Statement) : Bool :=
  prog.all fun st => match st with
    | .req t => decide (t < Statement.totalTicks p prog)
    | _ => true

/-- No tick is given two requests: the format allows at most one (R55). -/
def Statement.requestsDistinct (prog : List Statement) : Bool :=
  decide (prog.filterMap fun st => match st with
    | .req t => some t
    | _ => none).Nodup

/-- `NOW0` of each PARAM is a TIME_W-bit value (R9). That a program with another one is ill-formed is the model's (DESIGN CHOICE,
log 28). -/
def Statement.originInRange (prog : List Statement) : Bool :=
  prog.all fun st => match st with
    | .param _ w now0 _ => decide (now0.getD 0 < 2 ^ w.getD 32)
    | _ => true

/-- Every check of a program. -/
def Statement.wellFormed (p : Nat) (prog : List Statement) : Bool :=
  Statement.requestsInside p prog && Statement.requestsDistinct prog && Statement.originInRange prog

end Sys2Proof
end

