-- ==== Sys2Proof/Decode.lean ====
section
/-!
DEFINITION. Decoding, total on any bytes, and the encoder. The dispatch word's map is SET-VALUED (30_encoding.md R52, R53):
decoding answers the list of the operations a word selects, and the loop or the step picks one.
-/

namespace Sys2Proof

/-! ### The dispatch word (R51 to R54) -/

/-- A row of R52's map: the operation is enabled when `DW and mask == pattern`. -/
structure HandlerRow where
  handler : Handler
  mask : DispatchWord
  pattern : DispatchWord
  deriving DecidableEq, Repr

/-- The four handler rows of R52. -/
def handlerRows : List HandlerRow :=
  [⟨.edge, 0x18, 0x08⟩, ⟨.sampleMid, 0x34, 0x14⟩, ⟨.sampleLast, 0x34, 0x34⟩, ⟨.reply, 0x03, 0x02⟩]

/-- The handlers a dispatch word enables (R52). -/
def enabledHandlers (dw : DispatchWord) : List Handler :=
  handlerRows.filterMap fun r => if dw &&& r.mask = r.pattern then some r.handler else none

/-- The four WAIT rows of R52. -/
def enabledWaits (dw : DispatchWord) : List Instr :=
  [(Instr.waitA, 0x1A#6, 0x00#6), (.waitB, 0x1B#6, 0x03#6), (.waitC, 0x16#6, 0x10#6), (.waitD, 0x17#6, 0x13#6)].filterMap
    fun r => if dw &&& r.2.1 = r.2.2 then some r.1 else none

/-- All the rows of R52 a dispatch word matches. -/
def decodeDispatch (dw : DispatchWord) : List Instr :=
  (enabledHandlers dw).map Handler.toInstr ++ enabledWaits dw

/-! ### The other words -/

/-- The queue command `{push, pop}`; only PUSH looks at pushData (R56). -/
def decodeQueue (qc : BitVec 2) (pushData : Byte) : Except DecodeError (List Instr) :=
  if qc = 3 then .error .queueCommandBoth
  else if qc = 2 then .ok [.push pushData]
  else if qc = 1 then .ok [.pop]
  else .ok []

/-- The stimulus word `{req, rxd}`: every value is a TICK, and one with `req` 1 is a REQUEST inside it (R55, R59). -/
def decodeStimulus (sw : BitVec 2) : List Instr :=
  .tick (sw.getLsbD 1) (sw.getLsbD 0) :: (if sw.getLsbD 1 then [.request] else [])

/-- The reset input: 1 selects RESET, 0 selects nothing (R59). -/
def decodeRst (rst : BitVec 1) : List Instr := if rst = 1 then [.reset] else []

/-- The operations an operation word selects; the empty list is the word that selects none (QC = 0b00, rst = 0). -/
def decode (w : OpWord) : Except DecodeError (List Instr) :=
  match Port.ofTag w.port with
  | none => .error .unknownPort
  | some p =>
    if ¬ w.word.toNat < 2 ^ p.width then .error .reservedBits
    else if w.data ≠ 0 ∧ p ≠ .queue then .error .strayData
    else match p with
      | .dispatch => .ok (decodeDispatch (w.word.setWidth 6))
      | .queue => decodeQueue (w.word.setWidth 2) w.data
      | .stimulus => .ok (decodeStimulus (w.word.setWidth 2))
      | .rst => .ok (decodeRst (w.word.setWidth 1))

/-- Read one operation word from bytes: the word, the port's tag, pushData. -/
def OpWord.ofBytes : List Byte → Except DecodeError (OpWord × List Byte)
  | b0 :: b1 :: b2 :: rest => .ok (⟨b0, b1, b2⟩, rest)
  | _ => .error .truncated

/-- Decode the first operation word of some bytes. Total: any bytes at all answer a list or a reason. -/
def decodeBytes (bs : List Byte) : Except DecodeError (List Instr) :=
  match OpWord.ofBytes bs with
  | .ok (w, _) => decode w
  | .error e => .error e

/-! ### The encoder -/

/-- The operation word of an operation: its row's match value, with the bits the row ignores 0. -/
def encode : Instr → OpWord
  | .edge => ⟨0x08, Port.dispatch.tag, 0⟩
  | .sampleMid => ⟨0x14, Port.dispatch.tag, 0⟩
  | .sampleLast => ⟨0x34, Port.dispatch.tag, 0⟩
  | .reply => ⟨0x02, Port.dispatch.tag, 0⟩
  | .waitA => ⟨0x00, Port.dispatch.tag, 0⟩
  | .waitB => ⟨0x03, Port.dispatch.tag, 0⟩
  | .waitC => ⟨0x10, Port.dispatch.tag, 0⟩
  | .waitD => ⟨0x13, Port.dispatch.tag, 0⟩
  | .push b => ⟨0x2, Port.queue.tag, b⟩
  | .pop => ⟨0x1, Port.queue.tag, 0⟩
  | .tick req rxd => ⟨(BitVec.ofBool req ++ BitVec.ofBool rxd).setWidth 8, Port.stimulus.tag, 0⟩
  | .request => ⟨0x2, Port.stimulus.tag, 0⟩
  | .reset => ⟨0x1, Port.rst.tag, 0⟩

/-- The bytes of an operation word. -/
def OpWord.toBytes (w : OpWord) : List Byte := [w.word, w.port, w.data]

/-- The bytes of an operation. -/
def encodeBytes (i : Instr) : List Byte := (encode i).toBytes

/-! ### The opcode table's numbering -/

/-- An operation word from the table's numbering: bits 7..0 the word, bits 15..8 the port's tag, bits 23..16 pushData. A word
of at most 8 bits therefore has tag 0: it is read as a dispatch word, the block's opcode (log 1). -/
def OpWord.ofTable (w : Nat) : OpWord :=
  ⟨BitVec.ofNat 8 w, BitVec.ofNat 8 (w / 2 ^ 8), BitVec.ofNat 8 (w / 2 ^ 16)⟩

/-- The operation the decoder reads from a word numbered as the opcode table numbers it: the first operation the word selects. -/
def decodeTableWord (nbits w : Nat) : Option Instr :=
  match decodeBytes (OpWord.ofTable (w % 2 ^ nbits)).toBytes with
  | .ok (i :: _) => some i
  | _ => none

end Sys2Proof
end

