-- ==== Sys2Proof/Machine/State.lean ====
section
/-!
DEFINITION. The state as plain data: the ten items of 10_state.md R10, the interface signals of R23 and R24, the parameters, the
words the environment drives, and the model's own counter and ghost quantities. `State.reset` is the machine after reset
(70_reset_and_hazards.md R126).
-/

namespace Sys2Proof.Machine

/-- `framing` (R13). -/
inductive Framing where
  | idle
  | receiving
  deriving DecidableEq, Repr

/-- Queue storage: element index and byte, indices strictly rising. An element that is not listed holds NO value: nothing has
written it since reset (R28, log 9). -/
abbrev Memory := List Host.Cell

/-- Ghost quantities (R29, 43_output_queue.md R97): for stating laws; no operation reads one. -/
structure Ghost where
  /-- Bytes pushed since reset, oldest first. -/
  pushed : List Byte
  /-- Bytes popped since reset, oldest first. -/
  popped : List Byte
  /-- PUSHes executed with `unread == 10` since reset (R106). -/
  overruns : Nat
  /-- The delivery trace of `emit Reply` (00_scope.md section 5): time and byte. -/
  delivered : List (Nat × Byte)
  /-- The event trace (R62): tick index and handler. -/
  events : List (Nat × Event)
  /-- The tick index: ticks since reset. -/
  ticks : Nat
  /-- The value of `now` in the tick that serviced the last EDGE (R26(d)). -/
  t0 : Nat
  deriving DecidableEq, Repr

/-- No ghost quantity yet. -/
def Ghost.start : Ghost :=
  { pushed := [], popped := [], overruns := 0, delivered := [], events := [], ticks := 0, t0 := 0 }

/-- The state. -/
structure State where
  /-- R13. -/
  framing : Framing
  /-- 0..8; the codes 9..15 are unrepresentable (R14, R58). -/
  bitsReceived : Fin 9
  /-- R15. -/
  partialByte : Byte
  /-- R16; below 2^TIME_W in every state a run reaches. -/
  nextSampleDeadline : Nat
  /-- `buf[0..9]`, R17. -/
  buf : Memory
  /-- 0..9; the codes 10..15 are unrepresentable (R18, R58). -/
  writeIndex : Fin 10
  /-- 0..9 (R19, R58). -/
  readIndex : Fin 10
  /-- R20. -/
  empty : Bool
  /-- R21. -/
  reqPending : Bool
  /-- The line level of the previous tick, true for 1 (R22). -/
  prevLevel : Bool
  /-- Input: the line level of the tick that is running or ran last, true for 1 (R23). -/
  rxd : Bool
  /-- Input: the timer (R23, R117). -/
  now : Nat
  /-- Output: a REPLY ran in this tick (R24). -/
  rspValid : Bool
  /-- Output: the byte of that REPLY, else unspecified (R24). -/
  rspData : Byte
  /-- The queue port's output: the byte of the last POP (R56). -/
  popData : Byte
  /-- The operation words the environment drives in the steps to come, the next one first (R55, R63). -/
  inputs : List OpWord
  /-- The parameters (R9). No step writes them. -/
  params : Params
  /-- The index of the next free value (log 15). -/
  draws : Nat
  /-- Ghost quantities. -/
  ghost : Ghost
  deriving DecidableEq, Repr

/-- Why the machine stops with a fault. -/
inductive Fault where
  /-- Raised by POP and REPLY when the element at `readIndex` holds no value: nothing has written it since reset. R28 lets a
  model fault here; no state a run reaches does (R95). Safe. -/
  | unwrittenElement (index : Nat)
  deriving DecidableEq, Repr

/-- Why the machine gives a state or a stimulus no move. -/
inductive Refusal where
  /-- Raised by an arm of `exec` whose operation has no meaning yet; there is none now. Safe. -/
  | notModelled (mnemonic : String)
  /-- Raised by POP and REPLY when `empty == 1`: R89 says a model must refuse. Safe. -/
  | popWhenEmpty
  /-- Raised by REQUEST and TICK when a request comes while one is pending: R99 gives it no move. Safe. -/
  | requestWhilePending
  /-- Raised by SAMPLE_MID and SAMPLE_LAST when `bitsReceived` is already 8: the count 9 is a reserved code (R58). Safe. -/
  | bitCountOutOfRange
  /-- Raised when a state code given from outside is outside its range (R58). Safe. -/
  | reservedStateCode
  /-- Raised by TICK when the parameters break a constraint of R9: no such block exists. Safe. -/
  | illegalParameters
  /-- Raised by TICK if the dispatch loop does not end within its bound; R71 says it ends, so no state raises it. Safe. -/
  | iterationBound
  /-- Raised by `step` when a dispatch word of the input list does not select the operations the block's guards select (log 2). Safe. -/
  | dispatchWordMismatch
  /-- Raised by `step` when an input word decodes to nothing. Safe. -/
  | undecodable (reason : DecodeError)
  /-- Raised by `step` when the environment has driven no further word: the run ends because the stimulus ends (R72). Safe. -/
  | stimulusEnded
  deriving DecidableEq, Repr

/-- The state after reset, for given values of what the spec leaves unspecified there (R126, R127): the parameters, `NOW0`,
`partialByte` and `nextSampleDeadline`. -/
def State.resetTo (params : Params) (now0 : Nat) (partialByte : Byte) (deadline : Nat) : State :=
  { framing := .idle, bitsReceived := 0, partialByte := partialByte, nextSampleDeadline := deadline, buf := [],
    writeIndex := 0, readIndex := 0, empty := true, reqPending := false, prevLevel := true,
    rxd := true, now := now0, rspValid := false, rspData := 0, popData := 0,
    inputs := [], params := params, draws := 0, ghost := Ghost.start }

/-- The machine right after reset (R126). `partialByte`, `nextSampleDeadline` and `NOW0` are DESIGN CHOICE zero (log 6, log 7,
log 8); nothing is listed in `buf` (log 9) and no program is placed (log 3). -/
def State.reset : State := State.resetTo Params.default 0 0 0

end Sys2Proof.Machine
end

