-- ==== Sys2Proof/Machine/Operands.lean ====
section
/-!
DEFINITION. The primitives the operations compute with: time arithmetic and comparison (00_scope.md section 5), the shift of the
sampler (30_encoding.md R48), the ring index (43_output_queue.md R87), and the constraints on the parameters (R9).
-/

namespace Sys2Proof.Machine

/-! ### Time -/

/-- `a + b` modulo 2^TIME_W (R5). -/
def timeAdd (w a b : Nat) : Nat := (a + b) % 2 ^ w

/-- `a - b` modulo 2^TIME_W (R5). -/
def timeSub (w a b : Nat) : Nat := (a + (2 ^ w - b % 2 ^ w)) % 2 ^ w

/-- `reached(now, d)`: time `now` is at or after deadline `d`, read modulo the timestamp range (00_scope.md section 5, R118). -/
def reached (w now d : Nat) : Bool := decide (timeSub w now d < 2 ^ (w - 1))

/-- `FIRST_SAMPLE_DELAY = floor((3 * BIT_PERIOD) / 2)` (R4). -/
def firstSampleDelay (p : Params) : Nat := 3 * p.bitPeriod / 2

/-- The constraints of R9 (R3, R5, R6, R7). R9 asks of DISPATCH_ORDER a subset of the orders, which in words allows the empty one; an
empty choice of orders serves nothing, and the model calls it illegal (DESIGN CHOICE, log 21). -/
abbrev paramsLegal (p : Params) : Prop :=
  2 ≤ p.bitPeriod ∧ 8 ≤ p.timeW ∧ 10 * p.bitPeriod + p.jitterMax < 2 ^ (p.timeW - 1) ∧ 2 * p.jitterMax < p.bitPeriod ∧
    p.dispatchOrder ≠ [] ∧ ∀ o ∈ p.dispatchOrder, o ∈ ServiceOrder.all

/-! ### The sampler's accumulator -/

/-- `zext_8(s)` of a sampled level. -/
def zext8 (s : Bool) : Byte := if s then 1 else 0

/-- `(partialByte >> 1) | (zext_8(s) << 7)`: shift right, the new bit enters at bit 7 (R48, R78). -/
def shiftIn (acc : Byte) (s : Bool) : Byte := (acc >>> 1) ||| (zext8 s <<< 7)

/-! ### The ring -/

/-- `(i + 1) mod 10` (R18, R87). -/
def ringNext (i : Fin 10) : Fin 10 := ⟨(i.val + 1) % 10, Nat.mod_lt _ (by decide)⟩

/-- `(i + k) mod 10`. -/
def ringAt (i : Fin 10) (k : Nat) : Nat := (i.val + k) % 10

end Sys2Proof.Machine
end

