-- ==== Sys2Proof/Machine/Flags.lean ====
section
/-!
DEFINITION. The guard inputs and status conditions computed from the state: the six bits of the dispatch word (30_encoding.md
R51), the guards (40_dispatch.md R65), and the ghost function `unread` (43_output_queue.md R91). All are pure functions; evaluating
one changes nothing.
-/

namespace Sys2Proof.Machine

/-- `fallEdge`: `prevLevel == 1 and rxd == 0`. Constant within a tick, because no handler writes either (R64). -/
def fallEdge (s : State) : Bool := s.prevLevel && !s.rxd

/-- `lastBit`: the sample about to be taken is the 8th (R51). -/
def lastBit (s : State) : Bool := s.bitsReceived == 7

/-- DW[4] (R51). -/
def isReceiving (s : State) : Bool := s.framing == .receiving

/-- `due`: receiving and the deadline reached; while idle the deadline is not read (R51, R65). -/
def due (s : State) : Bool := isReceiving s && reached s.params.timeW s.now s.nextSampleDeadline

/-- The packing of R51, bit 5 first. -/
def packDispatch (lastBit receiving fallEdge due reqPending empty : Bool) : DispatchWord :=
  BitVec.ofBool lastBit ++ BitVec.ofBool receiving ++ BitVec.ofBool fallEdge ++ BitVec.ofBool due ++
    BitVec.ofBool reqPending ++ BitVec.ofBool empty

/-- The dispatch word of the state (R51). -/
def dispatchWord (s : State) : DispatchWord :=
  packDispatch (lastBit s) (isReceiving s) (fallEdge s) (due s) s.reqPending s.empty

/-- How far `now` is past the deadline, modulo 2^TIME_W (R69). -/
def lag (s : State) : Nat := timeSub s.params.timeW s.now s.nextSampleDeadline

/-- Whether a tick may end with these handlers pending: a SAMPLE alone, its lag below JITTER_MAX. EDGE and REPLY are never
deferred (R69). -/
def deferrable (s : State) (hs : List Handler) : Bool :=
  (hs == [.sampleMid] || hs == [.sampleLast]) && decide (lag s < s.params.jitterMax)

/-- The queue is full: the indices meet and `empty` is 0 (R20, R87). -/
def queueFull (s : State) : Bool := !s.empty && s.writeIndex == s.readIndex

/-- The ghost function `unread` (R91). -/
def unread (s : State) : Nat :=
  if s.empty then 0 else if s.writeIndex = s.readIndex then 10 else (s.writeIndex.val + 10 - s.readIndex.val) % 10

end Sys2Proof.Machine
end

