-- ==== Sys2Proof/Machine/Ops.lean ====
section
/-!
DEFINITION. The named operations over memory and registers that the meanings share: queue storage, PUSH and POP, the sample, the
reply, the request, the draws, and the selection of a handler. The block has no exception to take and none to return from
(60_exceptions.md R105); servicing an event saves nothing and ends at the guard evaluation (R113, R114), so there is no entry or
return operation here: Machine/DispatchLoop.lean runs a handler and evaluates the guards again.
-/

namespace Sys2Proof.Machine

/-- Go on with the next state of an outcome; a fault or a refusal ends the operation. -/
def andThen {α β : Type} (x : Host.Outcome α Fault Refusal) (f : α → Host.Outcome β Fault Refusal) :
    Host.Outcome β Fault Refusal :=
  match x with
  | .next a => f a
  | .fault r => .fault r
  | .refused r => .refused r

/-! ### Queue storage (R30, R31) -/

/-- `MemRead(a, 1)`: none where nothing has written the element since reset (R28). -/
def Memory.read? : Memory → Nat → Option Byte
  | [], _ => none
  | (k, v) :: m, a => if k = a then some v else Memory.read? m a

/-- `MemWrite(a, 1, v)`, keeping the indices strictly rising. -/
def Memory.write : Memory → Nat → Byte → Memory
  | [], a, v => [(a, v)]
  | (k, u) :: m, a, v =>
    if a < k then (a, v) :: (k, u) :: m
    else if a = k then (a, v) :: m
    else (k, u) :: Memory.write m a v

/-- The canonical form: indices strictly rising, all in 0..9 (R31). -/
abbrev Memory.wf (m : Memory) : Prop := m.Pairwise (fun x y => x.1 < y.1) ∧ ∀ c ∈ m, c.1 < 10

/-! ### Draws, inputs, traces -/

/-- Advance the index of the next free value by `k`. -/
def drawn (k : Nat) (s : State) : State := { s with draws := s.draws + k }

/-- Move past the input word that is being run. -/
def dropInput (s : State) : State := { s with inputs := s.inputs.tail }

/-- Write a handler into the event trace, at this tick's index (R62). -/
def logEvent (e : Event) (s : State) : State :=
  { s with ghost := { s.ghost with events := s.ghost.events ++ [(s.ghost.ticks, e)] } }

/-! ### PUSH and POP (43_output_queue.md) -/

/-- PUSH(b) under a reading of OVERRUN_POLICY (R8, R87). -/
def pushUnder (policy : OverrunPolicy) (b : Byte) (s : State) : State :=
  { s with
    buf := s.buf.write s.writeIndex.val b
    writeIndex := ringNext s.writeIndex
    readIndex := if policy = .dropOldest ∧ queueFull s then ringNext s.readIndex else s.readIndex
    empty := false
    ghost := { s.ghost with
      pushed := s.ghost.pushed ++ [b]
      overruns := if queueFull s then s.ghost.overruns + 1 else s.ghost.overruns } }

/-- PUSH(b) of this hardware: it never touches `readIndex` (R8, R87). -/
def push (b : Byte) (s : State) : State := pushUnder Config.overrunPolicy b s

/-- POP(): the byte goes to `popData`; `empty` is set when the indices meet after advancing (R88). Refused on an empty queue
(R89); an element that holds no value is a fault (R28). -/
def pop (s : State) : Host.Outcome State Fault Refusal :=
  if s.empty then .refused .popWhenEmpty
  else match s.buf.read? s.readIndex.val with
    | none => .fault (.unwrittenElement s.readIndex.val)
    | some b => .next { s with
        popData := b
        readIndex := ringNext s.readIndex
        empty := if ringNext s.readIndex = s.writeIndex then true else s.empty
        ghost := { s.ghost with popped := s.ghost.popped ++ [b] } }

/-! ### The sample, the reply, the request -/

/-- What SAMPLE_MID and SAMPLE_LAST share: the level of this tick enters the accumulator, the count goes up by 1 (R78, R79). The
count 9 is a reserved code and gets no behaviour (R58). -/
def sampleBit (s : State) : Host.Outcome State Fault Refusal :=
  if h : s.bitsReceived.val < 8 then
    .next { s with
      partialByte := shiftIn s.partialByte s.rxd
      bitsReceived := ⟨s.bitsReceived.val + 1, Nat.succ_lt_succ h⟩ }
  else .refused .bitCountOutOfRange

/-- `emit Reply(b)`: drive the reply outputs for this tick and append `(now, b)` to the delivery trace (00_scope.md section 5). -/
def emitReply (b : Byte) (s : State) : State :=
  { s with
    rspValid := true
    rspData := b
    ghost := { s.ghost with delivered := s.ghost.delivered ++ [(s.now, b)] } }

/-- REQUEST(): the request becomes pending (R98). A request while one is pending has no move (R99). -/
def requestByte (s : State) : Host.Outcome State Fault Refusal :=
  if s.reqPending then .refused .requestWhilePending else .next { s with reqPending := true }

/-- WAIT: the block is suspended; no state changes (R70, R122). -/
def suspend (s : State) : Host.Outcome State Fault Refusal := .next s

/-! ### Choosing a handler (R67) -/

/-- The handler an order serves first. -/
def firstIn (order : ServiceOrder) (hs : List Handler) : Option Handler :=
  order.findSome? fun src => hs.find? fun h => h.source == src

/-- Choose one of the enabled handlers: the only one, or the one an admitted order serves first. Several admitted orders: a free
value picks the order (R67, log 13). None only where nothing is enabled. -/
def choose (o : Oracle) (hs : List Handler) (s : State) : Option (Handler × State) :=
  match hs with
  | [] => none
  | [h] => some (h, s)
  | h :: rest => match s.params.dispatchOrder with
    | [order] => some ((firstIn order (h :: rest)).getD h, s)
    | orders => some ((firstIn (orders.getD (o.order s.draws % orders.length) []) (h :: rest)).getD h, drawn 1 s)

end Sys2Proof.Machine
end

