-- ==== Sys2Proof/Machine/BitSampler.lean ====
section
/-! DEFINITION. The bit sampler's handlers, SAMPLE_MID and SAMPLE_LAST (42_bit_sampler.md R78, R79). -/

namespace Sys2Proof.Machine

/-- SAMPLE_MID (R78): one bit in; the deadline moves on from its OLD value, never from `now` (R81). -/
def execSampleMid (s : State) : Host.Outcome State Fault Refusal :=
  andThen (sampleBit s) fun t =>
    .next (logEvent .sampleMid
      { t with nextSampleDeadline := timeAdd t.params.timeW t.nextSampleDeadline t.params.bitPeriod })

/-- SAMPLE_LAST (R79): the eighth bit in, back to idle, the byte pushed, `empty` cleared (again). The deadline stays. -/
def execSampleLast (s : State) : Host.Outcome State Fault Refusal :=
  andThen (sampleBit s) fun t =>
    .next (logEvent (.sampleLast t.partialByte)
      { push t.partialByte { t with framing := .idle } with empty := false })

end Sys2Proof.Machine
end

