-- ==== Sys2Proof/Machine/EdgeDetector.lean ====
section
/-! DEFINITION. The edge detector's handler, EDGE (41_edge_detector.md R73). -/

namespace Sys2Proof.Machine

/-- EDGE (R73): records the time, arms the first deadline one and a half bit periods on, starts receiving, clears the count. The
accumulator is not cleared (R15). The guard (idle and a falling edge) is the dispatch loop's (R65). -/
def execEdge (s : State) : Host.Outcome State Fault Refusal :=
  .next (logEvent .edge { s with
    nextSampleDeadline := timeAdd s.params.timeW s.now (firstSampleDelay s.params)
    framing := .receiving
    bitsReceived := 0
    ghost := { s.ghost with t0 := s.now } })

end Sys2Proof.Machine
end

