-- ==== Sys2Proof/Machine/RequestReply.lean ====
section
/-! DEFINITION. The request/reply handoff, REQUEST and REPLY (44_request_reply.md R98, R100). -/

namespace Sys2Proof.Machine

/-- REQUEST (R98). A second request while one is pending has no move (R99). -/
def execRequest (s : State) : Host.Outcome State Fault Refusal := requestByte s

/-- REPLY (R100): pop the oldest unread byte, drive it, resolve the request. -/
def execReply (s : State) : Host.Outcome State Fault Refusal :=
  andThen (pop s) fun t => .next (logEvent (.reply t.popData) { emitReply t.popData t with reqPending := false })

end Sys2Proof.Machine
end

