-- ==== Sys2Proof/Machine/DispatchLoop.lean ====
section
/-!
DEFINITION. The dispatch loop: TICK, the step of the whole system for one tick, and WAIT (40_dispatch.md R64 to R72).
-/

namespace Sys2Proof.Machine

/-! ### WAIT (R70): the four rows of R52 are one operation -/

/-- WAIT (a). -/
def execWaitA (s : State) : Host.Outcome State Fault Refusal := suspend s

/-- WAIT (b). -/
def execWaitB (s : State) : Host.Outcome State Fault Refusal := suspend s

/-- WAIT (c). -/
def execWaitC (s : State) : Host.Outcome State Fault Refusal := suspend s

/-- WAIT (d). -/
def execWaitD (s : State) : Host.Outcome State Fault Refusal := suspend s

/-! ### TICK (R64) -/

/-- What one iteration of the loop does after its guard evaluation. -/
inductive Pick where
  | leave (s : State)                  -- the loop ends for this tick
  | service (h : Handler) (s : State)  -- this handler runs to completion
  deriving DecidableEq, Repr

/-- The guard evaluation and the choice of one iteration: leave when nothing is enabled (WAIT), leave with a SAMPLE pending where
R69 allows it and the free value says so, else service one enabled handler (R67). -/
def pick (o : Oracle) (s : State) : Pick :=
  let hs := enabledHandlers (dispatchWord s)
  let mayDefer := deferrable s hs
  if mayDefer && o.defer s.draws then .leave (drawn 1 s)
  else match choose o hs (if mayDefer then drawn 1 s else s) with
    | none => .leave s
    | some (h, t) => .service h t

/-- Run a handler from its first line to its last (R66). -/
def runHandler : Handler → State → Host.Outcome State Fault Refusal
  | .edge, s => execEdge s
  | .sampleMid, s => execSampleMid s
  | .sampleLast, s => execSampleLast s
  | .reply, s => execReply s

/-- The dispatch loop, at most `n` iterations: exactly one handler an iteration, the guards evaluated afresh after each (R66). -/
def loopFrom (o : Oracle) : Nat → State → Host.Outcome State Fault Refusal
  | 0, _ => .refused .iterationBound
  | n + 1, s => match pick o s with
    | .leave t => .next t
    | .service h t => andThen (runHandler h t) (loopFrom o n)

/-- More iterations than any tick can take (R71; log 22). -/
def loopBound : Nat := 12

/-- The tick's inputs and idle outputs: the line's level, no reply yet, `rspData` unspecified (R23, R24). -/
def presentTick (o : Oracle) (rxd : Bool) (s : State) : State :=
  { s with rxd := rxd, rspValid := false, rspData := o.byte s.draws, draws := s.draws + 1 }

/-- Part 1 of a tick (R64): its inputs, and the request if there is one. -/
def openTick (o : Oracle) (req rxd : Bool) (s : State) : Host.Outcome State Fault Refusal :=
  if req then requestByte (presentTick o rxd s) else .next (presentTick o rxd s)

/-- Part 3 of a tick: the detector remembers the level, time advances by one (R22, R117). -/
def closeTick (s : State) : State :=
  { s with
    prevLevel := s.rxd
    now := timeAdd s.params.timeW s.now 1
    ghost := { s.ghost with ticks := s.ghost.ticks + 1 } }

/-- TICK (R64), with the draws of `o`: the step relation is this for every `o`. -/
def tickWith (o : Oracle) (req rxd : Bool) (s : State) : Host.Outcome State Fault Refusal :=
  if paramsLegal s.params then
    andThen (openTick o req rxd s) fun t => andThen (loopFrom o loopBound t) fun u => .next (closeTick u)
  else .refused .illegalParameters

/-- TICK, with the model's free values. -/
def execTick (req rxd : Bool) (s : State) : Host.Outcome State Fault Refusal := tickWith Config.oracle req rxd s

/-! ### One iteration as a step of its own (log 2), and the state a dispatch word needs -/

/-- The operation one iteration runs when it is stepped by itself: a chosen handler, or the WAIT row the word matches. -/
def iterationOp (o : Oracle) (dw : DispatchWord) (s : State) : Option (Instr × State) :=
  match choose o (enabledHandlers dw) s with
  | some (h, t) => some (h.toInstr, t)
  | none => (enabledWaits dw).head?.map fun i => (i, s)

/-- Give the queue and request flags the values DW[0] and DW[1] ask for: a queue that must not be empty gets a byte by PUSH. -/
def presentQueueBits (dw : DispatchWord) (s : State) : State :=
  let t := if dw.getLsbD 0 then { s with empty := true, readIndex := s.writeIndex } else if s.empty then push 0 s else s
  { t with reqPending := dw.getLsbD 1 }

/-- Give the line the levels DW[3] asks for. -/
def presentLineBits (dw : DispatchWord) (s : State) : State :=
  if dw.getLsbD 3 then { s with prevLevel := true, rxd := false } else if fallEdge s then { s with rxd := true } else s

/-- Give the receiver the state DW[5], DW[4] and DW[2] ask for. -/
def presentReceiverBits (dw : DispatchWord) (s : State) : State :=
  { s with
    framing := if dw.getLsbD 4 then .receiving else .idle
    bitsReceived := if dw.getLsbD 5 then 7 else if s.bitsReceived = 7 ∨ dw.getLsbD 4 ∧ s.bitsReceived = 8 then 0 else s.bitsReceived
    nextSampleDeadline :=
      if dw.getLsbD 4 ∧ reached s.params.timeW s.now s.nextSampleDeadline ≠ dw.getLsbD 2 then
        if dw.getLsbD 2 then s.now else timeAdd s.params.timeW s.now 1
      else s.nextSampleDeadline }

/-- A state whose guards form the dispatch word `dw` (of the words R54 leaves reachable). -/
def presentDispatchWord (dw : DispatchWord) (s : State) : State :=
  presentReceiverBits dw (presentLineBits dw (presentQueueBits dw s))

end Sys2Proof.Machine
end

