-- ==== Sys2Proof/Machine/OutputQueue.lean ====
section
/-! DEFINITION. The output queue's micro-operations, PUSH and POP (43_output_queue.md R87, R88, R89). -/

namespace Sys2Proof.Machine

/-- PUSH (R87): never blocks, never fails, also into a full queue (R94). -/
def execPush (b : Byte) (s : State) : Host.Outcome State Fault Refusal := .next (push b s)

/-- POP (R88): valid only when not empty (R89); the byte is the queue port's `popData` (R56). -/
def execPop (s : State) : Host.Outcome State Fault Refusal := pop s

end Sys2Proof.Machine
end

