-- ==== Sys2Proof/Machine/Reset.lean ====
section
/-! DEFINITION. RESET (70_reset_and_hazards.md R125 to R128). -/

namespace Sys2Proof.Machine

/-- RESET (R125) with the draws of `o`. What R126 leaves unspecified becomes a free value (`partialByte`, `nextSampleDeadline`,
`NOW0`, the data outputs) or holds no value (`buf`, R28). The environment's words and the parameters stay. -/
def resetWith (o : Oracle) (s : State) : Host.Outcome State Fault Refusal :=
  .next { s with
    framing := .idle
    bitsReceived := 0
    writeIndex := 0
    readIndex := 0
    empty := true
    reqPending := false
    prevLevel := true
    partialByte := o.byte s.draws
    nextSampleDeadline := o.time s.draws % 2 ^ s.params.timeW
    buf := []
    rspValid := false
    rspData := o.byte (s.draws + 1)
    popData := o.byte (s.draws + 2)
    now := o.time (s.draws + 1) % 2 ^ s.params.timeW
    draws := s.draws + 3
    ghost := Ghost.start }

/-- RESET, with the model's free values. -/
def execReset (s : State) : Host.Outcome State Fault Refusal := resetWith Config.oracle s

end Sys2Proof.Machine
end

