-- ==== Sys2Proof/Machine/Dispatch.lean ====
section
/-! DEFINITION. One arm for each constructor of Instr, each one direct call of its meaning. -/

namespace Sys2Proof.Machine

def exec (i : Instr) (s : State) : Host.Outcome State Fault Refusal :=
  match i with
  | .edge => Sys2Proof.Machine.execEdge s
  | .sampleMid => Sys2Proof.Machine.execSampleMid s
  | .sampleLast => Sys2Proof.Machine.execSampleLast s
  | .reply => Sys2Proof.Machine.execReply s
  | .waitA => Sys2Proof.Machine.execWaitA s
  | .waitB => Sys2Proof.Machine.execWaitB s
  | .waitC => Sys2Proof.Machine.execWaitC s
  | .waitD => Sys2Proof.Machine.execWaitD s
  | .push b => Sys2Proof.Machine.execPush b s
  | .pop => Sys2Proof.Machine.execPop s
  | .tick req rxd => Sys2Proof.Machine.execTick req rxd s
  | .request => Sys2Proof.Machine.execRequest s
  | .reset => Sys2Proof.Machine.execReset s

end Sys2Proof.Machine
end

