-- ==== Sys2Proof/Machine/Step.lean ====
section
/-!
DEFINITION. One step of the machine: take the next input word and run the operation it selects. A stimulus word is a TICK, the step
of the whole system for one tick (40_dispatch.md R64); a reset word is a RESET (R59). A dispatch word runs one iteration of the loop
by itself and a queue command one micro-operation (log 2).
-/

namespace Sys2Proof.Machine

/-- The operation a decoded input word runs, with the state it runs on; none for a word that selects no operation. -/
def selectOp (w : OpWord) (ops : List Instr) (s : State) : Option (Instr × State) :=
  if w.port = Port.dispatch.tag then iterationOp Config.oracle (dispatchWord s) s
  else ops.head?.map fun i => (i, s)

/-- One step. -/
def step (s : State) : Host.Outcome State Fault Refusal :=
  match s.inputs with
  | [] => .refused .stimulusEnded
  | w :: _ => match decode w with
    | .error e => .refused (.undecodable e)
    | .ok ops =>
      if w.port = Port.dispatch.tag ∧ ops ≠ decodeDispatch (dispatchWord s) then .refused .dispatchWordMismatch
      else match selectOp w ops (dropInput s) with
        | none => .next (dropInput s)
        | some (i, t) => exec i t

/-- `s` with an operation word, numbered as the opcode table numbers it, placed as the next input, and, for a dispatch word, with
the guards in the state that forms it. -/
def State.withFetchWord (s : State) (nbits w : Nat) : State :=
  let ow := OpWord.ofTable (w % 2 ^ nbits)
  let t := if ow.port = Port.dispatch.tag then presentDispatchWord (ow.word.setWidth 6) s else s
  { t with inputs := ow :: s.inputs }

end Sys2Proof.Machine
end

