-- ==== Sys2Proof/Machine/Codes.lean ====
section
/-!
DEFINITION. The state codes of 30_encoding.md R57 and the reserved codes R58 refuses. The codes are not observable at any interface
(92_eei_decisions.md D1); this file lets a state be given by its codes.
-/

namespace Sys2Proof.Machine

/-- The codes of the items R57 gives a binary code (all of R10 but the two bytes' contents and the timestamp, which are their own
codes). -/
structure StateCodes where
  framing : BitVec 1
  bitsReceived : BitVec 4
  writeIndex : BitVec 4
  readIndex : BitVec 4
  empty : BitVec 1
  reqPending : BitVec 1
  prevLevel : BitVec 1
  deriving DecidableEq, Repr

/-- `framing`: 0 = idle, 1 = receiving (R57). -/
def framingCode : Framing → BitVec 1
  | .idle => 0
  | .receiving => 1

/-- The `framing` of a code. -/
def framingOfCode (c : BitVec 1) : Framing := if c = 1 then .receiving else .idle

/-- The count of a 4-bit code; 9..15 are reserved (R58). -/
def bitsOfCode (c : BitVec 4) : Option (Fin 9) := if h : c.toNat < 9 then some ⟨c.toNat, h⟩ else none

/-- The index of a 4-bit code; 10..15 are reserved (R58). -/
def indexOfCode (c : BitVec 4) : Option (Fin 10) := if h : c.toNat < 10 then some ⟨c.toNat, h⟩ else none

/-- The codes of a state (R57). -/
def codesOf (s : State) : StateCodes :=
  { framing := framingCode s.framing
    bitsReceived := BitVec.ofNat 4 s.bitsReceived.val
    writeIndex := BitVec.ofNat 4 s.writeIndex.val
    readIndex := BitVec.ofNat 4 s.readIndex.val
    empty := BitVec.ofBool s.empty
    reqPending := BitVec.ofBool s.reqPending
    prevLevel := BitVec.ofBool s.prevLevel }

/-- The state with these codes; a state that holds a reserved code is refused (R58). -/
def loadCodes (c : StateCodes) (s : State) : Host.Outcome State Fault Refusal :=
  match bitsOfCode c.bitsReceived, indexOfCode c.writeIndex, indexOfCode c.readIndex with
  | some n, some w, some r =>
    .next { s with
      framing := framingOfCode c.framing
      bitsReceived := n
      writeIndex := w
      readIndex := r
      empty := c.empty == 1
      reqPending := c.reqPending == 1
      prevLevel := c.prevLevel == 1 }
  | _, _, _ => .refused .reservedStateCode

end Sys2Proof.Machine
end

