-- ==== Sys2Proof/Machine/Program.lean ====
section
/-!
DEFINITION. Stimulus sequences: the serial frame (30_encoding.md R45, R46), the expansion of program text (R61), loading a program
(R55), and the event trace as R62 writes it.
-/

namespace Sys2Proof.Machine

/-- The stimulus word `{req, rxd}` of a tick, as an input word (R55). -/
def stimulusWord (req rxd : Bool) : OpWord := encode (.tick req rxd)

/-- The level of `rxd` in the tick `j` after the start edge of a frame that carries `b`, at bit period `p` (R45, R46). -/
def frameLevel (p : Nat) (b : Byte) (j : Nat) : Bool :=
  if j < p then false else if j < 9 * p then b.getLsbD (j / p - 1) else true

/-- The levels a statement expands to (R61). -/
def statementLevels (p : Nat) : Statement → List Bool
  | .param _ _ _ _ => []
  | .hi n => List.replicate n true
  | .lo n => List.replicate n false
  | .req _ => []
  | .idle n => List.replicate n true
  | .frame b => List.replicate p false ++ (List.range 8).flatMap (fun k => List.replicate p (b.getLsbD k)) ++ List.replicate p true
  | .frameNoStop b => List.replicate p false ++ (List.range 8).flatMap (fun k => List.replicate p (b.getLsbD k))
  | .lowFor n => List.replicate n false

/-- The parameters and `NOW0` a program's PARAM line fixes; omitted items, and a program without the line, take 8, 32, 0, 0 (R61). -/
def programParams (prog : List Statement) : Params × Nat :=
  prog.foldl (fun acc st => match st with
      | .param p w now0 j => ({ Params.default with bitPeriod := p.getD 8, timeW := w.getD 32, jitterMax := j.getD 0 }, now0.getD 0)
      | _ => acc)
    (Params.default, 0)

/-- The ticks in which a program issues a request (R61). -/
def programRequests (prog : List Statement) : List Nat :=
  prog.filterMap fun st => match st with
    | .req t => some t
    | _ => none

/-- The stimulus words of a program, one for each tick (R55, R61). -/
def programWords (prog : List Statement) : List OpWord :=
  let reqs := programRequests prog
  ((prog.flatMap (statementLevels (programParams prog).1.bitPeriod)).zipIdx).map fun x => stimulusWord (reqs.contains x.2) x.1

/-- The machine after reset with a program loaded from outside (log 3). No rule says what a PARAM with a `NOW0` of 2^TIME_W or more
does; the model takes it modulo 2^TIME_W, as every time (DESIGN CHOICE, log 28). -/
def loadProgram (prog : List Statement) : State :=
  let p := programParams prog
  { State.resetTo p.1 (p.2 % 2 ^ p.1.timeW) 0 0 with inputs := programWords prog }

/-- The event trace, one line for each tick in which a handler ran (R62). -/
def traceLines : List (Nat × Event) → List (Nat × List Event)
  | [] => []
  | (t, e) :: rest => match traceLines rest with
    | (u, es) :: more => if t = u then (u, e :: es) :: more else (t, [e]) :: (u, es) :: more
    | [] => [(t, [e])]

end Sys2Proof.Machine
end

