-- ==== Sys2Proof/Safety.lean ====
section
/-!
DEFINITION. What a good state is, in the terms the statements use: the invariants of 10_state.md R26 and R27, the canonical form of
queue storage, the window a deadline stands in (40_dispatch.md R68, R69), and the order of the bytes (43_output_queue.md R92). Also the
views of a state the statements compare.
-/

namespace Sys2Proof.Machine

/-! ### The queue's unread bytes (R27(c)) -/

/-- The `k`-th unread element, oldest first; none where it holds no value. -/
def unreadAt (s : State) (k : Nat) : Option Byte := s.buf.read? (ringAt s.readIndex k)

/-- The unread elements, oldest first: `buf[readIndex], buf[(readIndex+1) mod 10], ...` (R27(c)). -/
def unreadBytes (s : State) : List (Option Byte) := (List.range (unread s)).map (unreadAt s)

/-! ### The invariants -/

/-- Queue storage and its indices: the canonical form, R27(b), and R27(d) for every unread element. -/
structure QueueInv (s : State) : Prop where
  canonical : s.buf.wf
  emptyMeets : s.empty = true → s.writeIndex = s.readIndex
  unreadWritten : ∀ k, k < unread s → (unreadAt s k).isSome = true

/-- Timestamps are TIME_W-bit values (R5, R57). -/
structure TimeInv (s : State) : Prop where
  nowFits : s.now < 2 ^ s.params.timeW
  deadlineFits : s.nextSampleDeadline < 2 ^ s.params.timeW

/-- The receiver: R26(a), (b), (d), and the deadline at most FIRST_SAMPLE_DELAY ahead of `now` or JITTER_MAX behind it. -/
structure ReceiverInv (s : State) : Prop where
  countReceiving : s.framing = .receiving → s.bitsReceived.val ≤ 7
  countIdle : s.framing = .idle → s.bitsReceived.val = 0 ∨ s.bitsReceived.val = 8
  deadlineOnGrid : s.framing = .receiving →
    s.nextSampleDeadline = (s.ghost.t0 + firstSampleDelay s.params + s.bitsReceived.val * s.params.bitPeriod) % 2 ^ s.params.timeW
  deadlineNear : s.framing = .receiving →
    timeSub s.params.timeW (timeAdd s.params.timeW s.now (firstSampleDelay s.params)) s.nextSampleDeadline ≤
      firstSampleDelay s.params + s.params.jitterMax

/-- While no overrun has happened, the bytes pushed are the bytes popped and then the unread bytes, in order (R27(c), R92). -/
def FifoInv (s : State) : Prop :=
  s.ghost.overruns = 0 → s.ghost.pushed.map some = s.ghost.popped.map some ++ unreadBytes s

/-- The invariant of the machine. -/
structure Inv (s : State) : Prop where
  legal : paramsLegal s.params
  queue : QueueInv s
  time : TimeInv s
  receiver : ReceiverInv s
  fifo : FifoInv s

/-- While no overrun has happened, the bytes pushed are the bytes delivered and then the unread bytes, in order: the `j`-th reply
carries the `j`-th byte (44_request_reply.md R102). -/
def DeliveryInv (s : State) : Prop :=
  s.ghost.overruns = 0 → s.ghost.pushed.map some = s.ghost.delivered.map (fun d => some d.2) ++ unreadBytes s

/-! ### How a tick's loop may end -/

/-- Nothing is enabled, or a SAMPLE alone is and its lag is below JITTER_MAX (R68, R69). -/
def LoopEnded (s : State) : Prop :=
  enabledHandlers (dispatchWord s) = [] ∨ deferrable s (enabledHandlers (dispatchWord s)) = true

/-! ### Views -/

/-- The state without its ghost quantities (R29). -/
def eraseGhost (s : State) : State := { s with ghost := Ghost.start }

/-- The receiver's part of the state: items 1 to 4 and 10 of R10, the line and the timer. -/
def receiverView (s : State) : Framing × Fin 9 × Byte × Nat × Bool × Bool × Nat :=
  (s.framing, s.bitsReceived, s.partialByte, s.nextSampleDeadline, s.prevLevel, s.rxd, s.now)

/-- The same state at another origin of time: every time in it moved on by `k` (R127). -/
def shiftTime (k : Nat) (s : State) : State :=
  { s with
    now := timeAdd s.params.timeW s.now k
    nextSampleDeadline := timeAdd s.params.timeW s.nextSampleDeadline k
    ghost := { s.ghost with
      t0 := timeAdd s.params.timeW s.ghost.t0 k
      delivered := s.ghost.delivered.map fun d => (timeAdd s.params.timeW d.1 k, d.2) } }

/-- Two states that differ at most in what R126 leaves unspecified: the accumulator's bits no sample has flushed yet, and the deadline
while idle. -/
def AgreeOnDefined (s t : State) : Prop :=
  t = { s with partialByte := t.partialByte, nextSampleDeadline := t.nextSampleDeadline } ∧
    (s.framing = .receiving → t.nextSampleDeadline = s.nextSampleDeadline ∧
      ∀ k, k < s.bitsReceived.val → t.partialByte.getLsbD (7 - k) = s.partialByte.getLsbD (7 - k))

/-- `f` applied to the next state of an outcome. -/
def mapNext (f : State → State) : Host.Outcome State Fault Refusal → Host.Outcome State Fault Refusal
  | .next s => .next (f s)
  | .fault r => .fault r
  | .refused r => .refused r

/-! ### Sequences of one operation -/

/-- PUSH the bytes of a list, in order. -/
def pushAll : List Byte → State → State
  | [], s => s
  | b :: bs, s => pushAll bs (push b s)

/-- POP `n` times, collecting what `popData` shows. -/
def popMany : Nat → State → Host.Outcome (List Byte × State) Fault Refusal
  | 0, s => .next ([], s)
  | n + 1, s => andThen (pop s) fun t => andThen (popMany n t) fun r => .next (t.popData :: r.1, r.2)

/-- Run the operations in order, the line at the level beside each. -/
def runAtLevels : List (Instr × Bool) → State → Host.Outcome State Fault Refusal
  | [], s => .next s
  | (i, level) :: rest, s => andThen (exec i { s with rxd := level }) (runAtLevels rest)

/-- The stimulus words of `n` ticks of a frame that carries `b`, no requests (30_encoding.md R46). -/
def frameTicks (p : Nat) (b : Byte) (n : Nat) : List OpWord :=
  (List.range n).map fun j => stimulusWord false (frameLevel p b j)

end Sys2Proof.Machine
end

