-- ==== Sys2Proof/Certificates/Slice0/Obligations.lean ====
section
/-!
DEFINITION. The statements for the provers. Times and indices are written out with their modulus, elements of queue storage by their
reads. `g` stands for the ghost quantities, the model's own (log 17), where a rule says nothing of them.
-/

open Sys2Proof Sys2Proof.Machine

/-! ### Decoding and encoding (30_encoding.md) -/

/-- Words written out from the spec's tables (R52, R55, R56, R59) decode to the operations they stand for. The port tags are log
1's. -/
def Obligations.TableWordsDecode : Prop :=
  decode ⟨0b00001000, 0, 0⟩ = .ok [.edge] ∧ decode ⟨0b00001010, 0, 0⟩ = .ok [.edge, .reply] ∧
  decode ⟨0b00011101, 0, 0⟩ = .ok [.sampleMid] ∧ decode ⟨0b00110110, 0, 0⟩ = .ok [.sampleLast, .reply] ∧
  decode ⟨0b00000001, 0, 0⟩ = .ok [.waitA] ∧ decode ⟨0b00010011, 0, 0⟩ = .ok [.waitD] ∧
  decode ⟨0b10, 1, 0x41⟩ = .ok [.push 0x41] ∧ decode ⟨0b01, 1, 0⟩ = .ok [.pop] ∧
  decode ⟨0b01, 2, 0⟩ = .ok [.tick false true] ∧ decode ⟨0b10, 2, 0⟩ = .ok [.tick true false, .request] ∧
  decode ⟨1, 3, 0⟩ = .ok [.reset]

/-- R52: each row is selected exactly by its mask and match; a WAIT row matches if and only if no handler row does, and at most one
WAIT row matches. -/
def Obligations.DispatchMapFollowsMaskAndMatch : Prop :=
  ∀ dw : DispatchWord,
    (Instr.edge ∈ decodeDispatch dw ↔ dw &&& 0x18 = 0x08) ∧ (Instr.sampleMid ∈ decodeDispatch dw ↔ dw &&& 0x34 = 0x14) ∧
    (Instr.sampleLast ∈ decodeDispatch dw ↔ dw &&& 0x34 = 0x34) ∧ (Instr.reply ∈ decodeDispatch dw ↔ dw &&& 0x03 = 0x02) ∧
    (Instr.waitA ∈ decodeDispatch dw ↔ dw &&& 0x1A = 0x00) ∧ (Instr.waitB ∈ decodeDispatch dw ↔ dw &&& 0x1B = 0x03) ∧
    (Instr.waitC ∈ decodeDispatch dw ↔ dw &&& 0x16 = 0x10) ∧ (Instr.waitD ∈ decodeDispatch dw ↔ dw &&& 0x17 = 0x13) ∧
    ((∃ w ∈ [Instr.waitA, .waitB, .waitC, .waitD], w ∈ decodeDispatch dw) ↔
      ∀ h ∈ [Instr.edge, .sampleMid, .sampleLast, .reply], h ∉ decodeDispatch dw) ∧
    (∀ v ∈ [Instr.waitA, .waitB, .waitC, .waitD], ∀ w ∈ [Instr.waitA, .waitB, .waitC, .waitD],
      v ∈ decodeDispatch dw → w ∈ decodeDispatch dw → v = w)

/-- Decoding the bytes of an operation's word, whatever follows them, selects that operation, for every operation and operand. The
byte layout is the model's own (log 1). -/
def Obligations.EveryOperationDecodesFromItsWord : Prop :=
  ∀ (i : Instr) (rest : List Byte), (encode i).wellFormed = true ∧
    ∃ ops, decodeBytes (encodeBytes i ++ rest) = .ok ops ∧ i ∈ ops

/-- The decoder accepts exactly the well-formed words, and refuses each other word by the name of the first check it fails: an
unknown port, a bit above the format's width, a data byte on a port without pushData, the queue command 0b11 (R56). The port tags, the data byte and the
names are the model's own (log 1). -/
def Obligations.DecoderAcceptsExactlyWellFormedWords : Prop :=
  ∀ w : OpWord, ((∃ ops, decode w = .ok ops) ↔ w.wellFormed = true) ∧
    (w.knownPort = false → decode w = .error .unknownPort) ∧
    (w.knownPort = true → w.fits = false → decode w = .error .reservedBits) ∧
    (w.knownPort = true → w.fits = true → w.dataOnlyOnQueue = false → decode w = .error .strayData) ∧
    (w.knownPort = true → w.fits = true → w.dataOnlyOnQueue = true → w.noPushAndPop = false → decode w = .error .queueCommandBoth)

/-- R55, R59: every stimulus word is a TICK with its two bits as operands, and a REQUEST inside it when `req` is 1. The port tag is
log 1's. -/
def Obligations.EveryStimulusWordIsATick : Prop :=
  ∀ sw : BitVec 2, decode ⟨sw.setWidth 8, 2, 0⟩ =
    .ok (.tick (sw.getLsbD 1) (sw.getLsbD 0) :: if sw &&& 2 = 2 then [.request] else [])

/-- R56: the four queue commands, whatever pushData is: only PUSH looks at it. The port tag and the place of pushData are log 1's. -/
def Obligations.QueueCommandWords : Prop :=
  ∀ b : Byte, decode ⟨0b10, 1, b⟩ = .ok [.push b] ∧ decode ⟨0b01, 1, b⟩ = .ok [.pop] ∧ decode ⟨0b00, 1, b⟩ = .ok [] ∧
    decode ⟨0b11, 1, b⟩ = .error .queueCommandBoth

/-! ### Guards (40_dispatch.md R65) -/

/-- R65: the three guards, and that the deadline is not read while idle. -/
def Obligations.GuardsEnableHandlers : Prop :=
  ∀ s : State,
    (Handler.edge ∈ enabledHandlers (dispatchWord s) ↔ s.framing = .idle ∧ s.prevLevel = true ∧ s.rxd = false) ∧
    (Handler.sampleMid ∈ enabledHandlers (dispatchWord s) ↔
      s.framing = .receiving ∧ timeSub s.params.timeW s.now s.nextSampleDeadline < 2 ^ (s.params.timeW - 1) ∧ s.bitsReceived.val ≠ 7) ∧
    (Handler.sampleLast ∈ enabledHandlers (dispatchWord s) ↔
      s.framing = .receiving ∧ timeSub s.params.timeW s.now s.nextSampleDeadline < 2 ^ (s.params.timeW - 1) ∧ s.bitsReceived.val = 7) ∧
    (Handler.reply ∈ enabledHandlers (dispatchWord s) ↔ s.reqPending = true ∧ s.empty = false) ∧
    (s.framing = .idle → ∀ d, dispatchWord { s with nextSampleDeadline := d } = dispatchWord s)

/-! ### The handlers and micro-operations: result and frame -/

/-- R73: EDGE is the row `DW and 0x18 == 0x08`, idle with a falling edge; in every state the deadline is `now + FIRST_SAMPLE_DELAY`,
receiving, count 0; nothing else changes (the accumulator, the queue, the pending request and `prevLevel` among it). -/
def Obligations.EdgeArmsTheSampler : Prop :=
  (∀ dw : DispatchWord, Handler.edge ∈ enabledHandlers dw ↔ dw &&& 0x18 = 0x08) ∧
  (∀ s : State, Handler.edge ∈ enabledHandlers (dispatchWord s) ↔ s.framing = .idle ∧ s.prevLevel = true ∧ s.rxd = false) ∧
  ∀ s : State, ∃ g, exec .edge s = .next { s with
    nextSampleDeadline := (s.now + 3 * s.params.bitPeriod / 2) % 2 ^ s.params.timeW
    framing := .receiving
    bitsReceived := 0
    ghost := g }

/-- R78: SAMPLE_MID is the row `DW and 0x34 == 0x14`, receiving and due and not the eighth: logical shift right, the sampled level
at bit 7, the count up by 1, the deadline moved on from its old value; nothing else changes. -/
def Obligations.SampleMidShiftsOneBit : Prop :=
  (∀ dw : DispatchWord, Handler.sampleMid ∈ enabledHandlers dw ↔ dw &&& 0x34 = 0x14) ∧
  (∀ s : State, Handler.sampleMid ∈ enabledHandlers (dispatchWord s) ↔
    s.framing = .receiving ∧ timeSub s.params.timeW s.now s.nextSampleDeadline < 2 ^ (s.params.timeW - 1) ∧ s.bitsReceived.val ≠ 7) ∧
  ∀ s : State, s.bitsReceived.val < 8 → ∃ (n : Fin 9) (g : Ghost), n.val = s.bitsReceived.val + 1 ∧
    exec .sampleMid s = .next { s with
      partialByte := (s.partialByte >>> 1) ||| ((BitVec.ofBool s.rxd).setWidth 8 <<< 7)
      bitsReceived := n
      nextSampleDeadline := (s.nextSampleDeadline + s.params.bitPeriod) % 2 ^ s.params.timeW
      ghost := g }

/-- R79: SAMPLE_LAST is the row `DW and 0x34 == 0x34`, receiving and due and the eighth: the bit in, the count up by 1, idle, the
byte in `buf[writeIndex]`, `writeIndex` on by one modulo 10, `empty` 0; every other element and every other register is unchanged,
full queue or not. -/
def Obligations.SampleLastPushesTheByte : Prop :=
  (∀ dw : DispatchWord, Handler.sampleLast ∈ enabledHandlers dw ↔ dw &&& 0x34 = 0x34) ∧
  (∀ s : State, Handler.sampleLast ∈ enabledHandlers (dispatchWord s) ↔
    s.framing = .receiving ∧ timeSub s.params.timeW s.now s.nextSampleDeadline < 2 ^ (s.params.timeW - 1) ∧ s.bitsReceived.val = 7) ∧
  ∀ s : State, s.bitsReceived.val < 8 → ∃ (b : Byte) (n : Fin 9) (m : Memory) (w : Fin 10) (g : Ghost),
    b = (s.partialByte >>> 1) ||| ((BitVec.ofBool s.rxd).setWidth 8 <<< 7) ∧ n.val = s.bitsReceived.val + 1 ∧
    w.val = (s.writeIndex.val + 1) % 10 ∧ m.read? s.writeIndex.val = some b ∧
    (∀ a, a ≠ s.writeIndex.val → m.read? a = s.buf.read? a) ∧
    exec .sampleLast s = .next { s with
      partialByte := b, bitsReceived := n, framing := .idle, buf := m, writeIndex := w, empty := false, ghost := g }

/-- R58: no operation produces the count 9: a sample with the count already 8 (no run reaches that) is refused. The refusal's form
is log 19's. -/
def Obligations.SampleBeyondEightBitsIsRefused : Prop :=
  ∀ s : State, s.bitsReceived.val = 8 →
    exec .sampleMid s = .refused .bitCountOutOfRange ∧ exec .sampleLast s = .refused .bitCountOutOfRange

/-- R87: PUSH in every state: one element written, `writeIndex` on by one modulo 10, `empty` 0; `readIndex` is neither read nor
written, no other element changes, full queue or not. -/
def Obligations.PushWritesOneElement : Prop :=
  ∀ (s : State) (b : Byte), ∃ (m : Memory) (w : Fin 10) (g : Ghost),
    w.val = (s.writeIndex.val + 1) % 10 ∧ m.read? s.writeIndex.val = some b ∧
    (∀ a, a ≠ s.writeIndex.val → m.read? a = s.buf.read? a) ∧
    exec (.push b) s = .next { s with buf := m, writeIndex := w, empty := false, ghost := g }

/-- R88: POP of a queue that is not empty returns `buf[readIndex]`, moves `readIndex` on by one modulo 10, and sets `empty` when the
new index meets `writeIndex`; nothing else changes. That an element holds a byte once written is log 9's form of R28. That the byte
stands on `popData` after the POP is log 11's. -/
def Obligations.PopTakesTheOldestByte : Prop :=
  ∀ (s : State) (b : Byte), s.empty = false → s.buf.read? s.readIndex.val = some b →
    ∃ (r : Fin 10) (g : Ghost), r.val = (s.readIndex.val + 1) % 10 ∧
      exec .pop s = .next { s with popData := b, readIndex := r, empty := decide (r = s.writeIndex), ghost := g }

/-- R89: POP and REPLY on an empty queue are refused: no value, not zero, not the stale element. -/
def Obligations.PopOnEmptyQueueIsRefused : Prop :=
  ∀ s : State, s.empty = true → exec .pop s = .refused .popWhenEmpty ∧ exec .reply s = .refused .popWhenEmpty

/-- The model's form of R28 (log 9): a POP of an element nothing has written since reset faults, and so does a REPLY. -/
def Obligations.PopOfUnwrittenElementFaults : Prop :=
  ∀ s : State, s.empty = false → s.buf.read? s.readIndex.val = none →
    exec .pop s = .fault (.unwrittenElement s.readIndex.val) ∧ exec .reply s = .fault (.unwrittenElement s.readIndex.val)

/-- R100: REPLY is the row `DW and 0x03 == 0x02`, a request pending and a byte unread; it drives the byte POP takes and resolves the
request; the receiver, `writeIndex` and `buf` are untouched. That an element holds a byte once written is log 9's form of R28; that
the POP inside shows the byte on `popData` is log 11's. -/
def Obligations.ReplyDrivesTheOldestByte : Prop :=
  (∀ dw : DispatchWord, Handler.reply ∈ enabledHandlers dw ↔ dw &&& 0x03 = 0x02) ∧
  (∀ s : State, Handler.reply ∈ enabledHandlers (dispatchWord s) ↔ s.reqPending = true ∧ s.empty = false) ∧
  ∀ (s : State) (b : Byte), s.empty = false → s.buf.read? s.readIndex.val = some b →
    ∃ (r : Fin 10) (g : Ghost), r.val = (s.readIndex.val + 1) % 10 ∧
      exec .reply s = .next { s with
        popData := b, readIndex := r, empty := decide (r = s.writeIndex), rspValid := true, rspData := b, reqPending := false,
        ghost := g }

/-- R98: a REQUEST sets `reqPending` and touches nothing else. -/
def Obligations.RequestBecomesPending : Prop :=
  ∀ s : State, s.reqPending = false → exec .request s = .next { s with reqPending := true }

/-- R99: a request while one is pending has no move, alone or in a tick. The refusal's form is log 18's. -/
def Obligations.SecondRequestHasNoMove : Prop :=
  ∀ (s : State) (l : Bool), s.reqPending = true → exec .request s = .refused .requestWhilePending ∧
    (paramsLegal s.params → exec (.tick true l) s = .refused .requestWhilePending)

/-- R70: WAIT, each of its four rows, changes no state and drives no output. -/
def Obligations.WaitChangesNothing : Prop :=
  ∀ s : State, exec .waitA s = .next s ∧ exec .waitB s = .next s ∧ exec .waitC s = .next s ∧ exec .waitD s = .next s

/-- The ghost quantities, the model's own (log 17), record what ran: the event trace of R62, the delivery trace of `emit Reply`, the
bytes pushed and popped, the overruns R97 lets a model count, the time of the edge. -/
def Obligations.GhostQuantitiesRecordWhatRan : Prop :=
  ∀ (s t : State) (b : Byte),
    (exec .edge s = .next t → t.ghost = { s.ghost with events := s.ghost.events ++ [(s.ghost.ticks, .edge)], t0 := s.now }) ∧
    (exec .sampleMid s = .next t → t.ghost = { s.ghost with events := s.ghost.events ++ [(s.ghost.ticks, .sampleMid)] }) ∧
    (exec .sampleLast s = .next t → t.ghost = { s.ghost with
      events := s.ghost.events ++ [(s.ghost.ticks, .sampleLast t.partialByte)]
      pushed := s.ghost.pushed ++ [t.partialByte]
      overruns := s.ghost.overruns + if unread s = 10 then 1 else 0 }) ∧
    (exec (.push b) s = .next t → t.ghost = { s.ghost with
      pushed := s.ghost.pushed ++ [b], overruns := s.ghost.overruns + if unread s = 10 then 1 else 0 }) ∧
    (exec .pop s = .next t → t.ghost = { s.ghost with popped := s.ghost.popped ++ [t.popData] }) ∧
    (exec .reply s = .next t → t.ghost = { s.ghost with
      events := s.ghost.events ++ [(s.ghost.ticks, .reply t.rspData)]
      popped := s.ghost.popped ++ [t.rspData]
      delivered := s.ghost.delivered ++ [(s.now, t.rspData)] }) ∧
    (exec .reset s = .next t → t.ghost = Ghost.start)

/-- R125: RESET in every state: the seven registers R125 writes, no reply in the reset tick; what R125 leaves with no defined value
is some value (`partialByte`, `nextSampleDeadline`, `NOW0`, the data outputs), and no element of `buf` holds one. The parameters,
the line and the words to come stay. The free values' form is log 20's. -/
def Obligations.ResetFromAnyState : Prop :=
  ∀ s : State, ∃ (p d1 d2 : Byte) (deadline now0 k : Nat) (g : Ghost),
    deadline < 2 ^ s.params.timeW ∧ now0 < 2 ^ s.params.timeW ∧
    exec .reset s = .next { s with
      framing := .idle, bitsReceived := 0, writeIndex := 0, readIndex := 0, empty := true, reqPending := false, prevLevel := true,
      rspValid := false, partialByte := p, nextSampleDeadline := deadline, buf := [], rspData := d1, popData := d2, now := now0,
      draws := k, ghost := g }

/-! ### TICK (40_dispatch.md) -/

/-- R64: from every state of the invariant and every legal stimulus the tick completes: the line's level is remembered, time moves
on by one, the parameters and the words to come are untouched. -/
def Obligations.TickCompletes : Prop :=
  ∀ (s : State) (q l : Bool), Inv s → (q = true → s.reqPending = false) →
    ∃ t, exec (.tick q l) s = .next t ∧ t.prevLevel = l ∧ t.rxd = l ∧ t.now = (s.now + 1) % 2 ^ s.params.timeW ∧
      t.params = s.params ∧ t.inputs = s.inputs

/-- R70, R122, R101: a tick in which no handler is enabled, the request of the tick taken in, changes the line's registers, the timer
and the idle output, keeps the request, and changes nothing else: every other register and every element stays. A falling edge while
receiving, a low line while idle, and a request on an empty queue are such ticks. `rspData` then is log 10's free value. -/
def Obligations.QuietTickKeepsTheState : Prop :=
  ∀ (s : State) (q l : Bool), paramsLegal s.params → (q = true → s.reqPending = false) →
    enabledHandlers (dispatchWord { s with rxd := l, reqPending := q || s.reqPending }) = [] →
    ∃ (d : Byte) (k : Nat) (g : Ghost), exec (.tick q l) s = .next { s with
      rxd := l, prevLevel := l, now := (s.now + 1) % 2 ^ s.params.timeW, reqPending := q || s.reqPending,
      rspValid := false, rspData := d, draws := k, ghost := g }

/-- R71: the loop ends in every tick, for every choice, from every state. -/
def Obligations.LoopEndsInEveryTick : Prop :=
  ∀ (o : Oracle) (s : State) (q l : Bool), tickWith o q l s ≠ .refused .iterationBound

/-- R71: at most three handlers run in one tick, with jitter or without. -/
def Obligations.AtMostThreeHandlersInATick : Prop :=
  ∀ (o : Oracle) (s t : State) (q l : Bool), Inv s → tickWith o q l s = .next t →
    t.ghost.events.length ≤ s.ghost.events.length + 3

/-- R68, R69: when a tick ends nothing is enabled, or a SAMPLE alone is and its lag is below JITTER_MAX; with JITTER_MAX = 0
nothing. -/
def Obligations.NoEnabledHandlerIsLeftWaiting : Prop :=
  ∀ (o : Oracle) (s t : State) (q l : Bool), tickWith o q l s = .next t →
    ∃ u, t = closeTick u ∧ u.prevLevel = s.prevLevel ∧ u.now = s.now ∧
      (enabledHandlers (dispatchWord u) = [] ∨
        ((enabledHandlers (dispatchWord u) = [.sampleMid] ∨ enabledHandlers (dispatchWord u) = [.sampleLast]) ∧
          timeSub u.params.timeW u.now u.nextSampleDeadline < s.params.jitterMax)) ∧
      (s.params.jitterMax = 0 → enabledHandlers (dispatchWord u) = [])

/-- R67, R69: with DISPATCH_ORDER = any each enabled handler is the one serviced for some draws (a SAMPLE's deferral not drawn), and
a SAMPLE alone whose lag is below JITTER_MAX is left pending for some draws. The draws are logs 13's and 14's form of the choice. -/
def Obligations.EveryEnabledHandlerMayBeServed : Prop :=
  ∀ s : State, s.params.dispatchOrder = ServiceOrder.all →
    (∀ h ∈ enabledHandlers (dispatchWord s), ∃ o k, pick o s = .service h (drawn k s)) ∧
    (deferrable s (enabledHandlers (dispatchWord s)) = true → ∃ o k, pick o s = .leave (drawn k s))

/-- R67: the order of REPLY against another handler. EDGE and SAMPLE_MID reach the same state either way; so does SAMPLE_LAST when 1
to 9 bytes are unread. -/
def Obligations.OrderOfServiceDoesNotMatterUnlessFull : Prop :=
  (∀ s : State, mapNext eraseGhost (andThen (exec .edge s) (exec .reply)) = mapNext eraseGhost (andThen (exec .reply s) (exec .edge))) ∧
  (∀ s : State, s.bitsReceived.val < 8 →
    mapNext eraseGhost (andThen (exec .sampleMid s) (exec .reply)) = mapNext eraseGhost (andThen (exec .reply s) (exec .sampleMid))) ∧
  (∀ s : State, QueueInv s → s.bitsReceived.val < 8 → 1 ≤ unread s → unread s ≤ 9 →
    ∃ t u, andThen (exec .sampleLast s) (exec .reply) = .next t ∧ andThen (exec .reply s) (exec .sampleLast) = .next u ∧
      eraseGhost t = eraseGhost u)

/-- R67 (vectors Q10, Q11): on a full queue the order matters. REPLY first delivers the oldest byte and loses none, the byte just
sampled standing last; SAMPLE_LAST first delivers the byte just sampled and leaves the queue empty. -/
def Obligations.OrderOfServiceMattersWhenFull : Prop :=
  ∀ s : State, QueueInv s → s.bitsReceived.val < 8 → unread s = 10 →
    (∃ t, andThen (exec .reply s) (exec .sampleLast) = .next t ∧ some t.rspData = unreadAt s 0 ∧ unread t = 10 ∧
      (∀ k, k < 9 → unreadAt t k = unreadAt s (k + 1)) ∧ unreadAt t 9 = some t.partialByte) ∧
    (∃ t, andThen (exec .sampleLast s) (exec .reply) = .next t ∧ t.rspData = t.partialByte ∧ t.empty = true)

/-- R74, R75: in the tick of the eighth sample a falling edge starts the next byte at once, and the sampled bit 7 is 0. -/
def Obligations.EdgeInTheTickOfTheEighthSample : Prop :=
  ∀ (s t : State) (q : Bool), Inv s → s.params.jitterMax = 0 → s.framing = .receiving → s.bitsReceived.val = 7 →
    reached s.params.timeW s.now s.nextSampleDeadline = true → s.prevLevel = true → exec (.tick q false) s = .next t →
    t.framing = .receiving ∧ t.bitsReceived.val = 0 ∧
      t.nextSampleDeadline = (s.now + 3 * s.params.bitPeriod / 2) % 2 ^ s.params.timeW ∧
      ∃ b : Byte, b.getLsbD 7 = false ∧ t.ghost.pushed = s.ghost.pushed ++ [b]

/-- R84: a tick that leaves `receiving` for `idle` has pushed the byte: the eighth sample is the only way. -/
def Obligations.OnlyTheEighthSampleEndsAByte : Prop :=
  ∀ (o : Oracle) (s t : State) (q l : Bool), Inv s → tickWith o q l s = .next t → s.framing = .receiving → t.framing = .idle →
    ∃ b, t.ghost.pushed = s.ghost.pushed ++ [b] ∧ t.partialByte = b ∧ t.bitsReceived.val = 8

/-- R84, R143: a tick never ends with the receiver still receiving more than FIRST_SAMPLE_DELAY + 7 BIT_PERIOD + JITTER_MAX ticks
after the edge it recorded, whatever the draws, the line and the requests. -/
def Obligations.AByteEndsInBoundedTime : Prop :=
  ∀ (o : Oracle) (s t : State) (q l : Bool), Inv s → tickWith o q l s = .next t → t.framing = .receiving →
    timeSub s.params.timeW t.now t.ghost.t0 ≤ 3 * s.params.bitPeriod / 2 + 7 * s.params.bitPeriod + s.params.jitterMax

/-- R94, R31: in one tick no element but `buf[writeIndex]` changes. -/
def Obligations.TickWritesAtMostOneElement : Prop :=
  ∀ (o : Oracle) (s t : State) (q l : Bool), Inv s → tickWith o q l s = .next t →
    ∀ a, a ≠ s.writeIndex.val → t.buf.read? a = s.buf.read? a

/-! ### The request/reply handoff (44_request_reply.md) -/

/-- R21, R68, R101: a request is answered in the first tick in which the queue is not empty, so none is pending beside an unread byte
at a tick's end; and it is pending until a reply resolves it: a tick without a reply keeps it, whenever it came. -/
def Obligations.RequestIsAnsweredWhenAByteIsThere : Prop :=
  ∀ (o : Oracle) (s t : State) (q l : Bool), tickWith o q l s = .next t →
    (t.reqPending = true → t.empty = true) ∧ t.reqPending = ((q || s.reqPending) && !t.rspValid) ∧
    ((q = true ∨ s.reqPending = true) → s.empty = false → t.rspValid = true ∧ t.reqPending = false)

/-- R64, R24: `rspValid` is 1 exactly in a tick in which a REPLY ran; at most one runs, and `rspData` is its byte, at this tick's
time. -/
def Obligations.RspValidExactlyWhenAReplyRan : Prop :=
  ∀ (o : Oracle) (s t : State) (q l : Bool), tickWith o q l s = .next t →
    (t.rspValid = true → t.ghost.delivered = s.ghost.delivered ++ [(s.now, t.rspData)]) ∧
    (t.rspValid = false → t.ghost.delivered = s.ghost.delivered)

/-- R101, R103: a request on an empty queue is answered only by a byte assembled since: a tick that starts with the queue empty and
drives a reply has pushed the very byte it drives. -/
def Obligations.RequestOnEmptyQueueWaitsForTheNextByte : Prop :=
  ∀ (o : Oracle) (s t : State) (q l : Bool), Inv s → tickWith o q l s = .next t → s.empty = true → t.rspValid = true →
    t.ghost.pushed = s.ghost.pushed ++ [t.rspData]

/-- R102: with non-overflowing production the replies carry the pushed bytes in order, none twice, none skipped: every tick, and
RESET, keeps it. -/
def Obligations.DeliveryKeepsProductionOrder : Prop :=
  (∀ (o : Oracle) (s t : State) (q l : Bool), Inv s → DeliveryInv s → tickWith o q l s = .next t → DeliveryInv t) ∧
  (∀ (o : Oracle) (s t : State), resetWith o s = .next t → DeliveryInv t)

/-! ### The output queue (43_output_queue.md) -/

/-- R91: the ghost function `unread`, by its definition; it is the number of POPs before `empty` becomes 1; POP lowers it by one;
PUSH raises it by one, or sets it to 1 in a full queue; it is 0 exactly when `empty` is 1. -/
def Obligations.UnreadCountsTheBytes : Prop :=
  ∀ s : State, QueueInv s →
    unread s = (if s.empty = true then 0 else if s.writeIndex.val = s.readIndex.val then 10
      else (s.writeIndex.val + 10 - s.readIndex.val) % 10) ∧
    (∃ bs t, popMany (unread s) s = .next (bs, t) ∧ t.empty = true) ∧
    (∀ k, k < unread s → ∃ bs t, popMany k s = .next (bs, t) ∧ t.empty = false) ∧
    (∀ t, exec .pop s = .next t → unread t + 1 = unread s) ∧
    (∀ b t, exec (.push b) s = .next t → unread s ≤ 9 → unread t = unread s + 1) ∧
    (∀ b t, exec (.push b) s = .next t → unread s = 10 → unread t = 1) ∧
    (unread s = 0 ↔ s.empty = true)

/-- R92, R93: up to ten bytes pushed into an empty queue are popped in that order, and then the queue is empty. -/
def Obligations.QueueReturnsBytesInOrder : Prop :=
  ∀ (s : State) (bs : List Byte), QueueInv s → s.empty = true → bs.length ≤ 10 →
    unread (pushAll bs s) = bs.length ∧ ∃ t, popMany bs.length (pushAll bs s) = .next (bs, t) ∧ t.empty = true

/-- R94: a PUSH into a full queue destroys the oldest byte, moves the write index past the reader, and leaves a queue of one byte:
the next POP returns the newest byte and empties it; the other elements keep their bytes. -/
def Obligations.OverrunLeavesOnlyTheNewestByte : Prop :=
  ∀ (s : State) (b : Byte), QueueInv s → s.empty = false → s.writeIndex = s.readIndex →
    ∃ t u, exec (.push b) s = .next t ∧ t.buf.read? s.readIndex.val = some b ∧
      (∀ a, a ≠ s.readIndex.val → t.buf.read? a = s.buf.read? a) ∧
      t.writeIndex.val = (s.writeIndex.val + 1) % 10 ∧ t.readIndex = s.readIndex ∧ unread t = 1 ∧
      exec .pop t = .next u ∧ u.popData = b ∧ u.empty = true

/-- R96 (90_conflicts.md C1): eleven to twenty bytes pushed into an empty queue with no POP: POPs return the bytes from the eleventh
on and then the queue is empty. After twelve pushes they return b11, b12, not b3 to b12. -/
def Obligations.OverrunDeliversFromTheEleventhByte : Prop :=
  ∀ (s : State) (bs : List Byte), QueueInv s → s.empty = true → 10 < bs.length → bs.length ≤ 20 →
    ∃ t, popMany (bs.length - 10) (pushAll bs s) = .next (bs.drop 10, t) ∧ t.empty = true

/-! ### Assembly and reception (42_bit_sampler.md, 30_encoding.md) -/

/-- R80, R48, R35: seven SAMPLE_MIDs and a SAMPLE_LAST assemble the eight levels least significant bit first, whatever the
accumulator held, and push that byte. -/
def Obligations.EightSamplesAssembleTheByte : Prop :=
  ∀ (s : State) (levels : List Bool), s.bitsReceived.val = 0 → levels.length = 8 →
    ∃ t, runAtLevels ((List.replicate 7 Instr.sampleMid ++ [Instr.sampleLast]).zip levels) s = .next t ∧
      t.partialByte.toNat = ((List.range 8).map fun k => (levels.getD k false).toNat * 2 ^ k).sum ∧
      t.buf.read? s.writeIndex.val = some t.partialByte ∧ t.ghost.pushed = s.ghost.pushed ++ [t.partialByte] ∧
      t.framing = .idle ∧ t.bitsReceived.val = 8

/-- R46, R61: the statement FRAME expands to the waveform of a frame: start bit, eight data bits least significant first, one stop
bit, each BIT_PERIOD ticks. -/
def Obligations.FrameStatementIsTheWaveform : Prop :=
  ∀ (p : Nat) (b : Byte), statementLevels p (.frame b) = (List.range (10 * p)).map (frameLevel p b)

/-- R142, R46, R47 (D0's scenario S6): with JITTER_MAX = 0, from any state of the invariant that is idle with the line high, a frame
on the line puts its byte into the queue in the tick FIRST_SAMPLE_DELAY + 7 BIT_PERIOD after the start edge, whatever the byte, the
bit period, the queue and the time. -/
def Obligations.AFrameIsReceived : Prop :=
  ∀ (s : State) (b : Byte) (rest : List OpWord), Inv s → s.framing = .idle → s.prevLevel = true → s.params.jitterMax = 0 →
    s.inputs = frameTicks s.params.bitPeriod b (firstSampleDelay s.params + 7 * s.params.bitPeriod + 1) ++ rest →
    ∃ t : State, Host.Core.run Sys2Proof.core (firstSampleDelay s.params + 7 * s.params.bitPeriod + 1) s = .next t ∧
      t.framing = .idle ∧ t.partialByte = b ∧ t.ghost.pushed = s.ghost.pushed ++ [b] ∧ t.inputs = rest

/-! ### Time (60_exceptions.md) -/

/-- R118: while the two times are less than half the range apart, the modular comparison is the comparison of unbounded time. -/
def Obligations.ReachedAgreesWithUnboundedTime : Prop :=
  ∀ w now d : Nat, 1 ≤ w → now < d + 2 ^ (w - 1) → d ≤ now + 2 ^ (w - 1) →
    (reached w (now % 2 ^ w) (d % 2 ^ w) = true ↔ d ≤ now)

/-- R127: no behaviour depends on the absolute value of `now`: a tick at another origin of time is the same tick, every time in it
moved on alike. -/
def Obligations.OriginOfTimeDoesNotMatter : Prop :=
  ∀ (o : Oracle) (k : Nat) (s : State) (q l : Bool),
    tickWith o q l (shiftTime k s) = mapNext (shiftTime k) (tickWith o q l s)

/-! ### Isolation -/

/-- R104, R98: with JITTER_MAX = 0 the receiver's part of the state after a tick depends on its part before and on the line, not on
the requests, the queue or any draw: the consumer never delays the receiver. -/
def Obligations.ConsumerNeverDisturbsTheReceiver : Prop :=
  ∀ (o o' : Oracle) (s t s' t' : State) (q q' l : Bool), s.params.jitterMax = 0 → s'.params = s.params →
    receiverView s' = receiverView s → tickWith o q l s = .next t → tickWith o' q' l s' = .next t' →
    receiverView t' = receiverView t

/-- R29: no rule of the hardware reads a ghost quantity: a step from the same state with other ghosts is the same step (log 17). -/
def Obligations.GhostQuantitiesAreNeverRead : Prop :=
  ∀ (s : State) (g : Ghost), mapNext eraseGhost (step { s with ghost := g }) = mapNext eraseGhost (step s)

/-- R128, R28: the unspecified reset values never leak: two states that agree on everything defined take the same step, to states
that agree again, outputs and queue included; and the states after reset agree whatever the unspecified values are. -/
def Obligations.UnspecifiedResetValuesNeverLeak : Prop :=
  (∀ s t s' : State, AgreeOnDefined s t → step s = .next s' → ∃ t', step t = .next t' ∧ AgreeOnDefined s' t') ∧
  (∀ (p : Params) (n d d' : Nat) (b b' : Byte), AgreeOnDefined (State.resetTo p n b d) (State.resetTo p n b' d'))

/-! ### The step -/

/-- A step runs the operation of the next input word and moves past it: a stimulus word its TICK (R59), a reset word a RESET, a
queue command its micro-operation. A word that selects no operation (the queue command 0b00, R56; `rst` at 0, R59; log 23) is moved
past and changes nothing else. The input list is the model's own (log 2, log 3). -/
def Obligations.StepRunsTheDecodedOperation : Prop :=
  ∀ (s : State) (rest : List OpWord),
    (∀ q l, s.inputs = stimulusWord q l :: rest → step s = exec (.tick q l) { s with inputs := rest }) ∧
    (s.inputs = encode .reset :: rest → step s = exec .reset { s with inputs := rest }) ∧
    (∀ b, s.inputs = encode (.push b) :: rest → step s = exec (.push b) { s with inputs := rest }) ∧
    (∀ b, s.inputs = ⟨0b01, 1, b⟩ :: rest → step s = exec .pop { s with inputs := rest }) ∧
    (∀ b, s.inputs = ⟨0b00, 1, b⟩ :: rest → step s = .next { s with inputs := rest }) ∧
    (s.inputs = ⟨0, 3, 0⟩ :: rest → step s = .next { s with inputs := rest })

/-- A dispatch word that selects the operations the block's own guards select runs one of them, on the state past the word with the
draws at most moved on; any other is refused (log 2). -/
def Obligations.StepOfADispatchWord : Prop :=
  ∀ (s : State) (w : OpWord) (rest : List OpWord) (ops : List Instr), s.inputs = w :: rest → w.port = 0 → decode w = .ok ops →
    (ops = decodeDispatch (dispatchWord s) → ∃ i ∈ ops, ∃ k, step s = exec i { s with inputs := rest, draws := s.draws + k }) ∧
    (ops ≠ decodeDispatch (dispatchWord s) → step s = .refused .dispatchWordMismatch)

/-- A step without a further word of the environment is refused (R72: a run ends because the stimulus ends), and so is a word that
decodes to nothing, by its reason. The input list and these refusals are the model's own (log 1, log 3). -/
def Obligations.StepWithoutAUsableWordIsRefused : Prop :=
  ∀ s : State, (s.inputs = [] → step s = .refused .stimulusEnded) ∧
    ∀ w rest e, s.inputs = w :: rest → decode w = .error e → step s = .refused (.undecodable e)

/-- Every step that goes on leaves the parameters as they are (R9: fixed when the block is built), and uses up exactly one input word:
the input list, and that a step takes one word of it, are the model's own (log 2, log 3). -/
def Obligations.StepUsesOneWordAndKeepsTheParameters : Prop :=
  ∀ s t : State, step s = .next t → t.inputs = s.inputs.tail ∧ t.params = s.params

/-! ### The invariant -/

/-- The invariant (R26, R27, R92, the canonical form of queue storage, the deadline's window) holds after reset, whatever R126
leaves unspecified there and whatever the legal parameters. -/
def Obligations.InvariantHoldsAfterReset : Prop :=
  Inv State.reset ∧ ∀ (p : Params) (n d : Nat) (b : Byte), paramsLegal p → n < 2 ^ p.timeW → d < 2 ^ p.timeW → Inv (State.resetTo p n b d)

/-- R26, R27, R92: every step keeps the invariant, from every state that has it. -/
def Obligations.EveryStepKeepsTheInvariant : Prop :=
  ∀ s t : State, Inv s → step s = .next t → Inv t

/-- R105, R95: no step from a state of the invariant faults: no unwritten element is ever read. -/
def Obligations.NoStepFaultsFromTheInvariant : Prop :=
  ∀ (s : State) (r : Fault), Inv s → step s ≠ .fault r

/-! ### State codes -/

/-- R57, R58: the codes of a state's items, which give the state back; a state with a reserved code is refused. Loading codes is log
19's. -/
def Obligations.StateCodesRoundTripAndReservedCodesAreRefused : Prop :=
  (∀ s : State, loadCodes (codesOf s) s = .next s ∧
    ((codesOf s).framing = 1 ↔ s.framing = .receiving) ∧ (codesOf s).bitsReceived.toNat = s.bitsReceived.val ∧
    (codesOf s).writeIndex.toNat = s.writeIndex.val ∧ (codesOf s).readIndex.toNat = s.readIndex.val ∧
    ((codesOf s).empty = 1 ↔ s.empty = true) ∧ ((codesOf s).reqPending = 1 ↔ s.reqPending = true) ∧
    ((codesOf s).prevLevel = 1 ↔ s.prevLevel = true)) ∧
  (∀ (c : StateCodes) (s : State), (8 < c.bitsReceived.toNat ∨ 9 < c.writeIndex.toNat ∨ 9 < c.readIndex.toNat) →
    loadCodes c s = .refused .reservedStateCode)
end

