-- ==== Sys2Proof/Laws/Decode.lean ====
section
/-!
SUPPORT. Everything the decoder can answer (30_encoding.md R51 to R59).
-/

namespace Sys2Proof

theorem Port.ofTag_tag (p : Port) : Port.ofTag p.tag = some p := by cases p <;> decide

theorem Port.ofTag_eq_some {t : Byte} {p : Port} (h : Port.ofTag t = some p) : t = p.tag := by
  unfold Port.ofTag at h
  repeat' split at h
  all_goals simp_all [Port.tag] <;> subst h <;> rfl

/-- What an accepted word selects, port by port. -/
theorem decode_cases {w : OpWord} {ops : List Instr} (h : decode w = .ok ops) :
    (w.port = Port.dispatch.tag ∧ ops = decodeDispatch (w.word.setWidth 6)) ∨
    (w.port = Port.queue.tag ∧ (ops = [] ∨ ops = [.push w.data] ∨ ops = [.pop])) ∨
    (w.port = Port.stimulus.tag ∧ ops = decodeStimulus (w.word.setWidth 2)) ∨
    (w.port = Port.rst.tag ∧ (ops = [] ∨ ops = [.reset])) := by
  unfold decode at h
  split at h
  · simp at h
  rename_i p hp
  have hport := Port.ofTag_eq_some hp
  split at h
  · simp at h
  split at h
  · simp at h
  cases p with
  | dispatch => exact .inl ⟨hport, by simpa using h.symm⟩
  | queue =>
    refine .inr (.inl ⟨hport, ?_⟩)
    simp only [decodeQueue] at h
    repeat' split at h
    all_goals simp at h
    all_goals simp [h]
  | stimulus => exact .inr (.inr (.inl ⟨hport, by simpa using h.symm⟩))
  | rst =>
    refine .inr (.inr (.inr ⟨hport, ?_⟩))
    simp only [decodeRst] at h
    split at h <;> simp at h <;> simp [h]

/-- The WAIT rows decode to WAIT operations only. -/
theorem mem_enabledWaits {dw : DispatchWord} {i : Instr} (h : i ∈ enabledWaits dw) : i ∈ [Instr.waitA, .waitB, .waitC, .waitD] := by
  revert i dw; decide

end Sys2Proof
end

