-- ==== Sys2Proof/Laws/State.lean ====
section
/-!
SUPPORT. One lemma for each field of State under each named update of Machine/Ops.lean and Machine/DispatchLoop.lean, true by rfl
and given to simp, so that no later proof unfolds a record update.
-/

namespace Sys2Proof.Machine

/-! ### Advancing the draws -/

@[simp] theorem drawn_framing (k : Nat) (s : State) : (drawn k s).framing = s.framing := rfl
@[simp] theorem drawn_bitsReceived (k : Nat) (s : State) : (drawn k s).bitsReceived = s.bitsReceived := rfl
@[simp] theorem drawn_partialByte (k : Nat) (s : State) : (drawn k s).partialByte = s.partialByte := rfl
@[simp] theorem drawn_nextSampleDeadline (k : Nat) (s : State) : (drawn k s).nextSampleDeadline = s.nextSampleDeadline := rfl
@[simp] theorem drawn_buf (k : Nat) (s : State) : (drawn k s).buf = s.buf := rfl
@[simp] theorem drawn_writeIndex (k : Nat) (s : State) : (drawn k s).writeIndex = s.writeIndex := rfl
@[simp] theorem drawn_readIndex (k : Nat) (s : State) : (drawn k s).readIndex = s.readIndex := rfl
@[simp] theorem drawn_empty (k : Nat) (s : State) : (drawn k s).empty = s.empty := rfl
@[simp] theorem drawn_reqPending (k : Nat) (s : State) : (drawn k s).reqPending = s.reqPending := rfl
@[simp] theorem drawn_prevLevel (k : Nat) (s : State) : (drawn k s).prevLevel = s.prevLevel := rfl
@[simp] theorem drawn_rxd (k : Nat) (s : State) : (drawn k s).rxd = s.rxd := rfl
@[simp] theorem drawn_now (k : Nat) (s : State) : (drawn k s).now = s.now := rfl
@[simp] theorem drawn_rspValid (k : Nat) (s : State) : (drawn k s).rspValid = s.rspValid := rfl
@[simp] theorem drawn_rspData (k : Nat) (s : State) : (drawn k s).rspData = s.rspData := rfl
@[simp] theorem drawn_popData (k : Nat) (s : State) : (drawn k s).popData = s.popData := rfl
@[simp] theorem drawn_inputs (k : Nat) (s : State) : (drawn k s).inputs = s.inputs := rfl
@[simp] theorem drawn_params (k : Nat) (s : State) : (drawn k s).params = s.params := rfl
@[simp] theorem drawn_draws (k : Nat) (s : State) : (drawn k s).draws = s.draws + k := rfl
@[simp] theorem drawn_ghost (k : Nat) (s : State) : (drawn k s).ghost = s.ghost := rfl

/-! ### Moving past an input word -/

@[simp] theorem dropInput_framing (s : State) : (dropInput s).framing = s.framing := rfl
@[simp] theorem dropInput_bitsReceived (s : State) : (dropInput s).bitsReceived = s.bitsReceived := rfl
@[simp] theorem dropInput_partialByte (s : State) : (dropInput s).partialByte = s.partialByte := rfl
@[simp] theorem dropInput_nextSampleDeadline (s : State) : (dropInput s).nextSampleDeadline = s.nextSampleDeadline := rfl
@[simp] theorem dropInput_buf (s : State) : (dropInput s).buf = s.buf := rfl
@[simp] theorem dropInput_writeIndex (s : State) : (dropInput s).writeIndex = s.writeIndex := rfl
@[simp] theorem dropInput_readIndex (s : State) : (dropInput s).readIndex = s.readIndex := rfl
@[simp] theorem dropInput_empty (s : State) : (dropInput s).empty = s.empty := rfl
@[simp] theorem dropInput_reqPending (s : State) : (dropInput s).reqPending = s.reqPending := rfl
@[simp] theorem dropInput_prevLevel (s : State) : (dropInput s).prevLevel = s.prevLevel := rfl
@[simp] theorem dropInput_rxd (s : State) : (dropInput s).rxd = s.rxd := rfl
@[simp] theorem dropInput_now (s : State) : (dropInput s).now = s.now := rfl
@[simp] theorem dropInput_rspValid (s : State) : (dropInput s).rspValid = s.rspValid := rfl
@[simp] theorem dropInput_rspData (s : State) : (dropInput s).rspData = s.rspData := rfl
@[simp] theorem dropInput_popData (s : State) : (dropInput s).popData = s.popData := rfl
@[simp] theorem dropInput_inputs (s : State) : (dropInput s).inputs = s.inputs.tail := rfl
@[simp] theorem dropInput_params (s : State) : (dropInput s).params = s.params := rfl
@[simp] theorem dropInput_draws (s : State) : (dropInput s).draws = s.draws := rfl
@[simp] theorem dropInput_ghost (s : State) : (dropInput s).ghost = s.ghost := rfl

/-! ### The event trace -/

@[simp] theorem logEvent_framing (e : Event) (s : State) : (logEvent e s).framing = s.framing := rfl
@[simp] theorem logEvent_bitsReceived (e : Event) (s : State) : (logEvent e s).bitsReceived = s.bitsReceived := rfl
@[simp] theorem logEvent_partialByte (e : Event) (s : State) : (logEvent e s).partialByte = s.partialByte := rfl
@[simp] theorem logEvent_nextSampleDeadline (e : Event) (s : State) : (logEvent e s).nextSampleDeadline = s.nextSampleDeadline := rfl
@[simp] theorem logEvent_buf (e : Event) (s : State) : (logEvent e s).buf = s.buf := rfl
@[simp] theorem logEvent_writeIndex (e : Event) (s : State) : (logEvent e s).writeIndex = s.writeIndex := rfl
@[simp] theorem logEvent_readIndex (e : Event) (s : State) : (logEvent e s).readIndex = s.readIndex := rfl
@[simp] theorem logEvent_empty (e : Event) (s : State) : (logEvent e s).empty = s.empty := rfl
@[simp] theorem logEvent_reqPending (e : Event) (s : State) : (logEvent e s).reqPending = s.reqPending := rfl
@[simp] theorem logEvent_prevLevel (e : Event) (s : State) : (logEvent e s).prevLevel = s.prevLevel := rfl
@[simp] theorem logEvent_rxd (e : Event) (s : State) : (logEvent e s).rxd = s.rxd := rfl
@[simp] theorem logEvent_now (e : Event) (s : State) : (logEvent e s).now = s.now := rfl
@[simp] theorem logEvent_rspValid (e : Event) (s : State) : (logEvent e s).rspValid = s.rspValid := rfl
@[simp] theorem logEvent_rspData (e : Event) (s : State) : (logEvent e s).rspData = s.rspData := rfl
@[simp] theorem logEvent_popData (e : Event) (s : State) : (logEvent e s).popData = s.popData := rfl
@[simp] theorem logEvent_inputs (e : Event) (s : State) : (logEvent e s).inputs = s.inputs := rfl
@[simp] theorem logEvent_params (e : Event) (s : State) : (logEvent e s).params = s.params := rfl
@[simp] theorem logEvent_draws (e : Event) (s : State) : (logEvent e s).draws = s.draws := rfl
@[simp] theorem logEvent_ghost (e : Event) (s : State) : (logEvent e s).ghost = { s.ghost with events := s.ghost.events ++ [(s.ghost.ticks, e)] } := rfl

/-! ### Driving a reply -/

@[simp] theorem emitReply_framing (b : Byte) (s : State) : (emitReply b s).framing = s.framing := rfl
@[simp] theorem emitReply_bitsReceived (b : Byte) (s : State) : (emitReply b s).bitsReceived = s.bitsReceived := rfl
@[simp] theorem emitReply_partialByte (b : Byte) (s : State) : (emitReply b s).partialByte = s.partialByte := rfl
@[simp] theorem emitReply_nextSampleDeadline (b : Byte) (s : State) : (emitReply b s).nextSampleDeadline = s.nextSampleDeadline := rfl
@[simp] theorem emitReply_buf (b : Byte) (s : State) : (emitReply b s).buf = s.buf := rfl
@[simp] theorem emitReply_writeIndex (b : Byte) (s : State) : (emitReply b s).writeIndex = s.writeIndex := rfl
@[simp] theorem emitReply_readIndex (b : Byte) (s : State) : (emitReply b s).readIndex = s.readIndex := rfl
@[simp] theorem emitReply_empty (b : Byte) (s : State) : (emitReply b s).empty = s.empty := rfl
@[simp] theorem emitReply_reqPending (b : Byte) (s : State) : (emitReply b s).reqPending = s.reqPending := rfl
@[simp] theorem emitReply_prevLevel (b : Byte) (s : State) : (emitReply b s).prevLevel = s.prevLevel := rfl
@[simp] theorem emitReply_rxd (b : Byte) (s : State) : (emitReply b s).rxd = s.rxd := rfl
@[simp] theorem emitReply_now (b : Byte) (s : State) : (emitReply b s).now = s.now := rfl
@[simp] theorem emitReply_rspValid (b : Byte) (s : State) : (emitReply b s).rspValid = true := rfl
@[simp] theorem emitReply_rspData (b : Byte) (s : State) : (emitReply b s).rspData = b := rfl
@[simp] theorem emitReply_popData (b : Byte) (s : State) : (emitReply b s).popData = s.popData := rfl
@[simp] theorem emitReply_inputs (b : Byte) (s : State) : (emitReply b s).inputs = s.inputs := rfl
@[simp] theorem emitReply_params (b : Byte) (s : State) : (emitReply b s).params = s.params := rfl
@[simp] theorem emitReply_draws (b : Byte) (s : State) : (emitReply b s).draws = s.draws := rfl
@[simp] theorem emitReply_ghost (b : Byte) (s : State) : (emitReply b s).ghost = { s.ghost with delivered := s.ghost.delivered ++ [(s.now, b)] } := rfl

/-! ### A tick's inputs -/

@[simp] theorem presentTick_framing (o : Oracle) (level : Bool) (s : State) : (presentTick o level s).framing = s.framing := rfl
@[simp] theorem presentTick_bitsReceived (o : Oracle) (level : Bool) (s : State) : (presentTick o level s).bitsReceived = s.bitsReceived := rfl
@[simp] theorem presentTick_partialByte (o : Oracle) (level : Bool) (s : State) : (presentTick o level s).partialByte = s.partialByte := rfl
@[simp] theorem presentTick_nextSampleDeadline (o : Oracle) (level : Bool) (s : State) : (presentTick o level s).nextSampleDeadline = s.nextSampleDeadline := rfl
@[simp] theorem presentTick_buf (o : Oracle) (level : Bool) (s : State) : (presentTick o level s).buf = s.buf := rfl
@[simp] theorem presentTick_writeIndex (o : Oracle) (level : Bool) (s : State) : (presentTick o level s).writeIndex = s.writeIndex := rfl
@[simp] theorem presentTick_readIndex (o : Oracle) (level : Bool) (s : State) : (presentTick o level s).readIndex = s.readIndex := rfl
@[simp] theorem presentTick_empty (o : Oracle) (level : Bool) (s : State) : (presentTick o level s).empty = s.empty := rfl
@[simp] theorem presentTick_reqPending (o : Oracle) (level : Bool) (s : State) : (presentTick o level s).reqPending = s.reqPending := rfl
@[simp] theorem presentTick_prevLevel (o : Oracle) (level : Bool) (s : State) : (presentTick o level s).prevLevel = s.prevLevel := rfl
@[simp] theorem presentTick_rxd (o : Oracle) (level : Bool) (s : State) : (presentTick o level s).rxd = level := rfl
@[simp] theorem presentTick_now (o : Oracle) (level : Bool) (s : State) : (presentTick o level s).now = s.now := rfl
@[simp] theorem presentTick_rspValid (o : Oracle) (level : Bool) (s : State) : (presentTick o level s).rspValid = false := rfl
@[simp] theorem presentTick_rspData (o : Oracle) (level : Bool) (s : State) : (presentTick o level s).rspData = o.byte s.draws := rfl
@[simp] theorem presentTick_popData (o : Oracle) (level : Bool) (s : State) : (presentTick o level s).popData = s.popData := rfl
@[simp] theorem presentTick_inputs (o : Oracle) (level : Bool) (s : State) : (presentTick o level s).inputs = s.inputs := rfl
@[simp] theorem presentTick_params (o : Oracle) (level : Bool) (s : State) : (presentTick o level s).params = s.params := rfl
@[simp] theorem presentTick_draws (o : Oracle) (level : Bool) (s : State) : (presentTick o level s).draws = s.draws + 1 := rfl
@[simp] theorem presentTick_ghost (o : Oracle) (level : Bool) (s : State) : (presentTick o level s).ghost = s.ghost := rfl

/-! ### The end of a tick -/

@[simp] theorem closeTick_framing (s : State) : (closeTick s).framing = s.framing := rfl
@[simp] theorem closeTick_bitsReceived (s : State) : (closeTick s).bitsReceived = s.bitsReceived := rfl
@[simp] theorem closeTick_partialByte (s : State) : (closeTick s).partialByte = s.partialByte := rfl
@[simp] theorem closeTick_nextSampleDeadline (s : State) : (closeTick s).nextSampleDeadline = s.nextSampleDeadline := rfl
@[simp] theorem closeTick_buf (s : State) : (closeTick s).buf = s.buf := rfl
@[simp] theorem closeTick_writeIndex (s : State) : (closeTick s).writeIndex = s.writeIndex := rfl
@[simp] theorem closeTick_readIndex (s : State) : (closeTick s).readIndex = s.readIndex := rfl
@[simp] theorem closeTick_empty (s : State) : (closeTick s).empty = s.empty := rfl
@[simp] theorem closeTick_reqPending (s : State) : (closeTick s).reqPending = s.reqPending := rfl
@[simp] theorem closeTick_prevLevel (s : State) : (closeTick s).prevLevel = s.rxd := rfl
@[simp] theorem closeTick_rxd (s : State) : (closeTick s).rxd = s.rxd := rfl
@[simp] theorem closeTick_now (s : State) : (closeTick s).now = timeAdd s.params.timeW s.now 1 := rfl
@[simp] theorem closeTick_rspValid (s : State) : (closeTick s).rspValid = s.rspValid := rfl
@[simp] theorem closeTick_rspData (s : State) : (closeTick s).rspData = s.rspData := rfl
@[simp] theorem closeTick_popData (s : State) : (closeTick s).popData = s.popData := rfl
@[simp] theorem closeTick_inputs (s : State) : (closeTick s).inputs = s.inputs := rfl
@[simp] theorem closeTick_params (s : State) : (closeTick s).params = s.params := rfl
@[simp] theorem closeTick_draws (s : State) : (closeTick s).draws = s.draws := rfl
@[simp] theorem closeTick_ghost (s : State) : (closeTick s).ghost = { s.ghost with ticks := s.ghost.ticks + 1 } := rfl

/-! ### PUSH (R87): `readIndex` is never written -/

@[simp] theorem push_framing (b : Byte) (s : State) : (push b s).framing = s.framing := rfl
@[simp] theorem push_bitsReceived (b : Byte) (s : State) : (push b s).bitsReceived = s.bitsReceived := rfl
@[simp] theorem push_partialByte (b : Byte) (s : State) : (push b s).partialByte = s.partialByte := rfl
@[simp] theorem push_nextSampleDeadline (b : Byte) (s : State) : (push b s).nextSampleDeadline = s.nextSampleDeadline := rfl
@[simp] theorem push_buf (b : Byte) (s : State) : (push b s).buf = s.buf.write s.writeIndex.val b := rfl
@[simp] theorem push_writeIndex (b : Byte) (s : State) : (push b s).writeIndex = ringNext s.writeIndex := rfl
@[simp] theorem push_readIndex (b : Byte) (s : State) : (push b s).readIndex = s.readIndex := rfl
@[simp] theorem push_empty (b : Byte) (s : State) : (push b s).empty = false := rfl
@[simp] theorem push_reqPending (b : Byte) (s : State) : (push b s).reqPending = s.reqPending := rfl
@[simp] theorem push_prevLevel (b : Byte) (s : State) : (push b s).prevLevel = s.prevLevel := rfl
@[simp] theorem push_rxd (b : Byte) (s : State) : (push b s).rxd = s.rxd := rfl
@[simp] theorem push_now (b : Byte) (s : State) : (push b s).now = s.now := rfl
@[simp] theorem push_rspValid (b : Byte) (s : State) : (push b s).rspValid = s.rspValid := rfl
@[simp] theorem push_rspData (b : Byte) (s : State) : (push b s).rspData = s.rspData := rfl
@[simp] theorem push_popData (b : Byte) (s : State) : (push b s).popData = s.popData := rfl
@[simp] theorem push_inputs (b : Byte) (s : State) : (push b s).inputs = s.inputs := rfl
@[simp] theorem push_params (b : Byte) (s : State) : (push b s).params = s.params := rfl
@[simp] theorem push_draws (b : Byte) (s : State) : (push b s).draws = s.draws := rfl
@[simp] theorem push_ghost (b : Byte) (s : State) : (push b s).ghost = { s.ghost with
      pushed := s.ghost.pushed ++ [b]
      overruns := if queueFull s then s.ghost.overruns + 1 else s.ghost.overruns } := rfl

/-! ### The guards under the updates that touch no guard input -/

@[simp] theorem drawn_dispatchWord (k : Nat) (s : State) : dispatchWord (drawn k s) = dispatchWord s := rfl
@[simp] theorem dropInput_dispatchWord (s : State) : dispatchWord (dropInput s) = dispatchWord s := rfl
@[simp] theorem logEvent_dispatchWord (e : Event) (s : State) : dispatchWord (logEvent e s) = dispatchWord s := rfl
@[simp] theorem emitReply_dispatchWord (b : Byte) (s : State) : dispatchWord (emitReply b s) = dispatchWord s := rfl
@[simp] theorem withGhost_dispatchWord (s : State) (g : Ghost) : dispatchWord { s with ghost := g } = dispatchWord s := rfl

/-! ### Going on with an outcome -/

@[simp] theorem andThen_next {α β : Type} (a : α) (f : α → Host.Outcome β Fault Refusal) : andThen (.next a) f = f a := rfl
@[simp] theorem andThen_fault {α β : Type} (r : Fault) (f : α → Host.Outcome β Fault Refusal) : andThen (.fault r) f = .fault r := rfl
@[simp] theorem andThen_refused {α β : Type} (r : Refusal) (f : α → Host.Outcome β Fault Refusal) :
    andThen (.refused r) f = .refused r := rfl

/-- An operation that goes on to a next state went on from one. -/
theorem andThen_eq_next {α β : Type} {x : Host.Outcome α Fault Refusal} {f : α → Host.Outcome β Fault Refusal} {b : β} :
    andThen x f = .next b ↔ ∃ a, x = .next a ∧ f a = .next b := by
  cases x <;> simp [andThen]

end Sys2Proof.Machine
end

