-- ==== Sys2Proof/Laws/Queue.lean ====
section
/-!
SUPPORT. PUSH and POP (43_output_queue.md): everything POP can do, the ghost function `unread`, and the invariants they keep.
-/

namespace Sys2Proof.Machine

/-! ### The ring index -/

@[simp] theorem ringNext_val (i : Fin 10) : (ringNext i).val = (i.val + 1) % 10 := rfl

@[simp] theorem ringAt_zero (i : Fin 10) : ringAt i 0 = i.val := by simp [ringAt, Nat.mod_eq_of_lt i.isLt]

theorem ringAt_next (i : Fin 10) (k : Nat) : ringAt (ringNext i) k = ringAt i (k + 1) := by simp [ringAt]; omega

/-! ### POP: everything it can do -/

/-- POP goes on exactly when the queue is not empty and the element at `readIndex` holds a byte; then this is the state (R88). -/
theorem pop_eq_next {s t : State} : pop s = .next t ↔
    s.empty = false ∧ ∃ b, s.buf.read? s.readIndex.val = some b ∧
      t = { s with
        popData := b
        readIndex := ringNext s.readIndex
        empty := if ringNext s.readIndex = s.writeIndex then true else s.empty
        ghost := { s.ghost with popped := s.ghost.popped ++ [b] } } := by
  unfold pop
  cases he : s.empty <;> cases hb : s.buf.read? s.readIndex.val <;> simp [eq_comm]

/-- POP on an empty queue is refused (R89). -/
theorem pop_empty {s : State} (h : s.empty = true) : pop s = .refused .popWhenEmpty := by simp [pop, h]

/-! ### `unread` (R91) -/

theorem unread_le (s : State) : unread s ≤ 10 := by unfold unread; split <;> [omega; split] <;> omega

theorem unread_eq_zero {s : State} : unread s = 0 ↔ s.empty = true := by
  unfold unread
  have := s.writeIndex.isLt
  have := s.readIndex.isLt
  cases he : s.empty <;> simp
  split
  · omega
  · rename_i h
    have : s.writeIndex.val ≠ s.readIndex.val := fun h' => h (Fin.ext h')
    omega

/-- The write index stands `unread` elements after the read index. -/
theorem writeIndex_eq {s : State} (h : s.empty = true → s.writeIndex = s.readIndex) : s.writeIndex.val = ringAt s.readIndex (unread s) := by
  unfold unread ringAt
  have := s.writeIndex.isLt
  have := s.readIndex.isLt
  cases he : s.empty
  · simp only [Bool.false_eq_true, if_false]
    split
    · rename_i h'; rw [h']; omega
    · omega
  · rw [h he]; simp; omega

theorem queueFull_iff {s : State} : queueFull s = true ↔ unread s = 10 := by
  unfold queueFull unread
  have := s.writeIndex.isLt
  have := s.readIndex.isLt
  cases he : s.empty <;> simp
  constructor
  · exact fun h hn => absurd h hn
  · intro h; by_contra hn; have := h hn; omega

/-- PUSH raises `unread` by one, or sets it to 1 in a full queue (R91). -/
theorem unread_push {b : Byte} {s : State} (h : s.empty = true → s.writeIndex = s.readIndex) :
    unread (push b s) = if unread s = 10 then 1 else unread s + 1 := by
  have hw := writeIndex_eq h
  have hle := unread_le s
  unfold ringAt at hw
  have := s.writeIndex.isLt
  have := s.readIndex.isLt
  have hne : (ringNext s.writeIndex = s.readIndex) ↔ (s.writeIndex.val + 1) % 10 = s.readIndex.val := by
    rw [← Fin.val_inj]; simp
  conv => lhs; unfold unread
  simp only [push_empty, push_writeIndex, push_readIndex, hne, ringNext_val, Bool.false_eq_true, if_false]
  split <;> split <;> omega

/-- POP lowers `unread` by one (R91). -/
theorem unread_pop {s t : State} (h : s.empty = true → s.writeIndex = s.readIndex) (hp : pop s = .next t) :
    unread t + 1 = unread s := by
  obtain ⟨he, b, hb, rfl⟩ := pop_eq_next.1 hp
  have hw := writeIndex_eq h
  have hle := unread_le s
  have hz : unread s ≠ 0 := fun h0 => by simp [unread_eq_zero.1 h0] at he
  unfold ringAt at hw
  have := s.writeIndex.isLt
  have := s.readIndex.isLt
  have hne : (ringNext s.readIndex = s.writeIndex) ↔ (s.readIndex.val + 1) % 10 = s.writeIndex.val := by
    rw [← Fin.val_inj]; simp
  have hne' : (s.writeIndex = ringNext s.readIndex) ↔ s.writeIndex.val = (s.readIndex.val + 1) % 10 := by
    rw [← Fin.val_inj]; simp
  conv => lhs; lhs; unfold unread
  simp only [hne, hne', he, ringNext_val]
  by_cases hc : (s.readIndex.val + 1) % 10 = s.writeIndex.val
  · simp [hc]; omega
  · simp only [hc, Ne.symm hc, if_false, Bool.false_eq_true]; omega

/-- After POP the unread elements are the old ones but the first. -/
theorem unreadAt_pop {s t : State} (hp : pop s = .next t) (k : Nat) : unreadAt t k = unreadAt s (k + 1) := by
  obtain ⟨he, b, hb, rfl⟩ := pop_eq_next.1 hp
  simp only [unreadAt, ringAt_next]

/-- A queue that is not empty has a first unread byte, so POP goes on. -/
theorem pop_goes_on {s : State} (hq : QueueInv s) (he : s.empty = false) : ∃ t, pop s = .next t := by
  have hpos : 0 < unread s := Nat.pos_of_ne_zero fun h0 => by simp [unread_eq_zero.1 h0] at he
  have h := hq.unreadWritten 0 hpos
  simp only [unreadAt, ringAt_zero] at h
  obtain ⟨b, hb⟩ := Option.isSome_iff_exists.1 h
  exact ⟨_, pop_eq_next.2 ⟨he, b, hb, rfl⟩⟩

/-- After PUSH the unread elements are the old ones and then the byte pushed; after an overrun, that byte alone (R94). -/
theorem unreadAt_push (b : Byte) (s : State) (k : Nat) :
    unreadAt (push b s) k = if (s.readIndex.val + k) % 10 = s.writeIndex.val then some b else unreadAt s k := by
  simp only [unreadAt, push_buf, push_readIndex, ringAt]
  split
  · rename_i heq; rw [heq]; simp
  · rename_i hne; rw [Memory.read?_write_other _ _ _ _ hne]

/-! ### The invariants -/

theorem QueueInv.push {s : State} (hq : QueueInv s) (b : Byte) : QueueInv (push b s) where
  canonical := Memory.write_wf hq.canonical s.writeIndex.isLt b
  emptyMeets := by simp
  unreadWritten k hk := by
    rw [unread_push hq.emptyMeets] at hk
    rw [unreadAt_push]
    have hw := writeIndex_eq hq.emptyMeets
    have := unread_le s
    unfold ringAt at hw
    split
    · rfl
    · apply hq.unreadWritten
      split at hk <;> by_contra hge
      · omega
      · have : k = unread s := by omega
        subst this; exact absurd hw.symm ‹_›

theorem QueueInv.pop {s t : State} (hq : QueueInv s) (hp : pop s = .next t) : QueueInv t := by
  have hu := unread_pop hq.emptyMeets hp
  have ha := unreadAt_pop hp
  obtain ⟨he, b, hb, ht⟩ := pop_eq_next.1 hp
  refine ⟨by subst ht; exact hq.canonical, fun h => ?_, fun k hk => ?_⟩
  · subst ht; simp only at h ⊢
    split at h
    · exact Eq.symm ‹_›
    · simp [he] at h
  · rw [ha]; exact hq.unreadWritten _ (by omega)

theorem unreadBytes_push {b : Byte} {s : State} (h : s.empty = true → s.writeIndex = s.readIndex) (hf : unread s ≠ 10) :
    unreadBytes (push b s) = unreadBytes s ++ [some b] := by
  have hw := writeIndex_eq h
  have hle := unread_le s
  unfold ringAt at hw
  unfold unreadBytes
  rw [unread_push h, if_neg hf, List.range_succ, List.map_append]
  congr 1
  · refine List.map_congr_left fun k hk => ?_
    have hk := List.mem_range.1 hk
    rw [unreadAt_push, if_neg (by omega)]
  · simp [unreadAt_push, hw]

theorem unreadBytes_pop {s t : State} (h : s.empty = true → s.writeIndex = s.readIndex) (hp : pop s = .next t) :
    unreadBytes s = some t.popData :: unreadBytes t := by
  have ha := unreadAt_pop hp
  unfold unreadBytes
  rw [← unread_pop h hp, List.range_succ_eq_map, List.map_cons, List.map_map]
  congr 1
  · obtain ⟨he, b, hb, rfl⟩ := pop_eq_next.1 hp
    simpa [unreadAt] using hb
  · exact List.map_congr_left fun k _ => (ha k).symm

theorem FifoInv.push {s : State} (hq : QueueInv s) (hf : FifoInv s) (b : Byte) : FifoInv (push b s) := by
  intro ho
  simp only [push_ghost] at ho ⊢
  split at ho
  · omega
  · rename_i hn
    have hn : unread s ≠ 10 := fun h => hn (queueFull_iff.2 h)
    rw [unreadBytes_push hq.emptyMeets hn, List.map_append, hf ho]
    simp

theorem FifoInv.pop {s t : State} (hq : QueueInv s) (hf : FifoInv s) (hp : pop s = .next t) : FifoInv t := by
  have hb := unreadBytes_pop hq.emptyMeets hp
  obtain ⟨he, b, _, rfl⟩ := pop_eq_next.1 hp
  intro ho
  have := hf ho
  rw [hb] at this
  simpa using this

end Sys2Proof.Machine
end

