-- ==== Sys2Proof/Laws/Time.lean ====
section
/-!
SUPPORT. Time arithmetic modulo 2^TIME_W: the few facts every timing proof cites.
-/

namespace Sys2Proof.Machine

theorem timeAdd_lt (w a b : Nat) : timeAdd w a b < 2 ^ w := Nat.mod_lt _ (Nat.two_pow_pos w)

theorem timeSub_lt (w a b : Nat) : timeSub w a b < 2 ^ w := Nat.mod_lt _ (Nat.two_pow_pos w)

/-- Subtraction undoes addition: `timeSub w a b` is the one number below 2^TIME_W that leads from `b` to `a`. -/
theorem timeAdd_timeSub {w a : Nat} (b : Nat) (ha : a < 2 ^ w) : timeAdd w b (timeSub w a b) = a := by
  unfold timeAdd timeSub
  have hb := Nat.mod_lt b (Nat.two_pow_pos w)
  have hd := Nat.div_add_mod b (2 ^ w)
  rw [Nat.add_mod_mod]
  have : b + (a + (2 ^ w - b % 2 ^ w)) = a + 2 ^ w * (b / 2 ^ w + 1) := by rw [Nat.mul_add]; omega
  rw [this, Nat.add_mul_mod_self_left, Nat.mod_eq_of_lt ha]

/-- A difference read off a sum: if `b + x` is `a` and `x` is below 2^TIME_W, then `x` is `a - b`. -/
theorem timeSub_eq_of_timeAdd {w a b x : Nat} (hx : x < 2 ^ w) (h : timeAdd w b x = a % 2 ^ w) : timeSub w a b = x := by
  unfold timeAdd at h
  unfold timeSub
  have hb := Nat.mod_lt b (Nat.two_pow_pos w)
  have hd := Nat.div_add_mod b (2 ^ w)
  rw [Nat.add_mod, ← h, ← Nat.add_mod]
  have : b + x + (2 ^ w - b % 2 ^ w) = x + 2 ^ w * (b / 2 ^ w + 1) := by rw [Nat.mul_add]; omega
  rw [this, Nat.add_mul_mod_self_left, Nat.mod_eq_of_lt hx]

@[simp] theorem timeSub_self (w a : Nat) : timeSub w a a = 0 :=
  timeSub_eq_of_timeAdd (Nat.two_pow_pos w) (by simp [timeAdd])

theorem timeAdd_assoc (w a b c : Nat) : timeAdd w (timeAdd w a b) c = timeAdd w a (b + c) := by
  simp [timeAdd, Nat.add_assoc]

@[simp] theorem timeAdd_mod (w a b : Nat) : timeAdd w a b % 2 ^ w = timeAdd w a b := Nat.mod_mod _ _

@[simp] theorem timeAdd_mod_left (w a b : Nat) : timeAdd w (a % 2 ^ w) b = timeAdd w a b := by simp [timeAdd]

/-- Moving both times on by the same amount leaves their difference (R127). -/
@[simp] theorem timeSub_shift (w a b k : Nat) : timeSub w (timeAdd w a k) (timeAdd w b k) = timeSub w a b := by
  apply timeSub_eq_of_timeAdd (timeSub_lt w a b)
  rw [timeAdd_assoc, Nat.add_comm k, ← timeAdd_assoc, timeAdd_mod]
  have h : timeAdd w b (timeSub w a b) = a % 2 ^ w := by
    have := timeAdd_timeSub (w := w) (a := a % 2 ^ w) b (Nat.mod_lt _ (Nat.two_pow_pos w))
    simpa [timeSub, timeAdd] using this
  rw [h, timeAdd_mod_left]

/-- `reached` as a bound on the difference. -/
theorem reached_iff {w a b : Nat} : reached w a b = true ↔ timeSub w a b < 2 ^ (w - 1) := by simp [reached]

/-- Half the range twice is the range (R5: TIME_W is at least 8). -/
theorem two_pow_half {w : Nat} (h : 1 ≤ w) : 2 ^ w = 2 ^ (w - 1) + 2 ^ (w - 1) := by
  obtain ⟨v, rfl⟩ : ∃ v, w = v + 1 := ⟨w - 1, by omega⟩
  simp [Nat.pow_succ]; omega

/-- A deadline `x` ticks ahead, less than half the range, is not reached. -/
theorem not_reached_ahead {w a b x : Nat} (hw : 1 ≤ w) (hb : b = timeAdd w a x) (hx : 0 < x) (hlt : x ≤ 2 ^ (w - 1)) :
    reached w a b = false := by
  have h2 := two_pow_half hw
  have hs : timeSub w a b = 2 ^ w - x := by
    apply timeSub_eq_of_timeAdd (by omega)
    subst hb
    rw [timeAdd_assoc, show x + (2 ^ w - x) = 2 ^ w by omega]
    simp [timeAdd]
  simp [reached, hs]; omega

/-- A deadline `x` ticks behind, less than half the range, is reached. -/
theorem reached_behind {w a b x : Nat} (ha : a = timeAdd w b x) (hw : 1 ≤ w) (hlt : x < 2 ^ (w - 1)) : reached w a b = true := by
  have h2 := two_pow_half hw
  have hs : timeSub w a b = x := timeSub_eq_of_timeAdd (by omega) (by subst ha; simp)
  rw [reached_iff, hs]; exact hlt

/-- Moving the later time on adds to the difference, as long as it stays in range. -/
theorem timeSub_timeAdd_left {w a b k : Nat} (h : timeSub w a b + k < 2 ^ w) : timeSub w (timeAdd w a k) b = timeSub w a b + k := by
  apply timeSub_eq_of_timeAdd h
  have hb : timeAdd w b (timeSub w a b) = a % 2 ^ w := by
    have := timeAdd_timeSub (w := w) (a := a % 2 ^ w) b (Nat.mod_lt _ (Nat.two_pow_pos w))
    simpa [timeSub, timeAdd] using this
  rw [← timeAdd_assoc, hb, timeAdd_mod_left, timeAdd_mod]

/-- Moving the earlier time on takes from the difference, as far as it goes. -/
theorem timeSub_timeAdd_right {w a b k : Nat} (h : k ≤ timeSub w a b) : timeSub w a (timeAdd w b k) = timeSub w a b - k := by
  have hlt := timeSub_lt w a b
  apply timeSub_eq_of_timeAdd (by omega)
  rw [timeAdd_assoc, show k + (timeSub w a b - k) = timeSub w a b by omega]
  have := timeAdd_timeSub (w := w) (a := a % 2 ^ w) b (Nat.mod_lt _ (Nat.two_pow_pos w))
  simpa [timeSub, timeAdd] using this

/-- A deadline whose distance to `now + f` is at least `f` is the rest behind `now`. -/
theorem lag_of_near {w now d f : Nat} (h : f ≤ timeSub w (timeAdd w now f) d) :
    timeSub w now d = timeSub w (timeAdd w now f) d - f := by
  rw [← timeSub_shift w now d f, timeSub_timeAdd_right h]

/-- A deadline whose distance to `now + f` is less than `f` is ahead of `now`, so it is not reached. -/
theorem not_reached_of_near {w now d f : Nat} (hw : 1 ≤ w) (hf : f ≤ 2 ^ (w - 1)) (h : timeSub w (timeAdd w now f) d < f) :
    reached w now d = false := by
  have key : reached w now d = reached w (timeAdd w now f) (timeAdd w d f) := by simp [reached]
  rw [key]
  apply not_reached_ahead hw (x := f - timeSub w (timeAdd w now f) d) _ (by omega) (by omega)
  conv => lhs; rw [show f = timeSub w (timeAdd w now f) d + (f - timeSub w (timeAdd w now f) d) by omega]
  rw [← timeAdd_assoc, timeAdd_timeSub d (timeAdd_lt w now f)]

/-! ### The parameters' constraints (R9) in the shape proofs use -/

theorem bitPeriod_le_firstSampleDelay (p : Params) : p.bitPeriod ≤ firstSampleDelay p := by unfold firstSampleDelay; omega

theorem firstSampleDelay_lt_half {p : Params} (h : paramsLegal p) : firstSampleDelay p + p.jitterMax < 2 ^ (p.timeW - 1) := by
  unfold firstSampleDelay; obtain ⟨h1, h2, h3, h4, -, -⟩ := h; omega

theorem firstSampleDelay_ge_three {p : Params} (h : paramsLegal p) : 3 ≤ firstSampleDelay p := by
  unfold firstSampleDelay; obtain ⟨h1, -⟩ := h; omega

end Sys2Proof.Machine
end

