-- ==== Sys2Proof/Laws/Dispatch.lean ====
section
/-!
SUPPORT. The dispatch loop (40_dispatch.md): when each handler is enabled, everything an iteration can do, and the rule that carries
a property from the start of a tick's loop to its end. Later proofs cite these and unfold neither `pick` nor `loopFrom`.
-/

namespace Sys2Proof.Machine

/-! ### The guards (R65) -/

theorem mem_enabled_pack (l r f d q e : Bool) (h : Handler) : h ∈ enabledHandlers (packDispatch l r f d q e) ↔
    (match h with
      | .edge => r = false ∧ f = true
      | .sampleMid => r = true ∧ d = true ∧ l = false
      | .sampleLast => r = true ∧ d = true ∧ l = true
      | .reply => q = true ∧ e = false) := by
  cases h <;> revert l r f d q e <;> decide

theorem isReceiving_iff {s : State} : isReceiving s = true ↔ s.framing = .receiving := by simp [isReceiving]

theorem isReceiving_false {s : State} : isReceiving s = false ↔ s.framing = .idle := by
  cases hf : s.framing <;> simp [isReceiving, hf]

theorem edge_enabled {s : State} : Handler.edge ∈ enabledHandlers (dispatchWord s) ↔
    s.framing = .idle ∧ s.prevLevel = true ∧ s.rxd = false := by
  rw [dispatchWord, mem_enabled_pack]; simp [isReceiving_false, fallEdge]

theorem sampleMid_enabled {s : State} : Handler.sampleMid ∈ enabledHandlers (dispatchWord s) ↔
    s.framing = .receiving ∧ reached s.params.timeW s.now s.nextSampleDeadline = true ∧ s.bitsReceived ≠ 7 := by
  rw [dispatchWord, mem_enabled_pack]
  simp +contextual [isReceiving_iff, due, lastBit]

theorem sampleLast_enabled {s : State} : Handler.sampleLast ∈ enabledHandlers (dispatchWord s) ↔
    s.framing = .receiving ∧ reached s.params.timeW s.now s.nextSampleDeadline = true ∧ s.bitsReceived = 7 := by
  rw [dispatchWord, mem_enabled_pack]
  simp +contextual [isReceiving_iff, due, lastBit]

theorem reply_enabled {s : State} : Handler.reply ∈ enabledHandlers (dispatchWord s) ↔ s.reqPending = true ∧ s.empty = false := by
  rw [dispatchWord, mem_enabled_pack]

/-- Two enabled handlers are never both the receiver's: at most one of them beside REPLY (R53, R67). -/
theorem enabled_pack_cases (l r f d q e : Bool) :
    enabledHandlers (packDispatch l r f d q e) ∈
      [[], [.edge], [.sampleMid], [.sampleLast], [.reply], [.edge, .reply], [.sampleMid, .reply], [.sampleLast, .reply]] := by
  revert l r f d q e; decide

/-! ### The choice (R67) -/

/-- Whatever is chosen is enabled, and only the draw counter may have moved. -/
theorem choose_eq_some {o : Oracle} {hs : List Handler} {s t : State} {h : Handler} (hc : choose o hs s = some (h, t)) :
    h ∈ hs ∧ ∃ k, t = drawn k s := by
  have hfirst : ∀ (order : ServiceOrder) (x : Handler) (xs : List Handler), (firstIn order (x :: xs)).getD x ∈ x :: xs := by
    intro order x xs
    cases hf : firstIn order (x :: xs) with
    | none => simp
    | some y =>
      obtain ⟨src, -, hy⟩ := List.exists_of_findSome?_eq_some hf
      simpa using List.mem_of_find?_eq_some hy
  match hs, hc with
  | [x], hc => simp [choose] at hc; exact ⟨by simp [hc.1], 0, hc.2.symm⟩
  | x :: y :: zs, hc =>
    unfold choose at hc
    split at hc
    · simp at hc
    · simp_all
    · rename_i h' rest heq
      split at hc <;> simp only [Option.some.injEq, Prod.mk.injEq] at hc <;> obtain ⟨rfl, rfl⟩ := hc <;> rw [heq]
      · exact ⟨hfirst _ _ _, 0, rfl⟩
      · exact ⟨hfirst _ _ _, 1, rfl⟩

/-- Something is chosen unless nothing is enabled. -/
theorem choose_eq_none {o : Oracle} {hs : List Handler} {s : State} : choose o hs s = none ↔ hs = [] := by
  unfold choose
  split
  · simp
  · simp
  · split <;> simp

/-! ### One iteration -/

/-- Everything an iteration can do: leave, with nothing enabled or with a deferrable SAMPLE pending, or service an enabled handler;
the state it goes on with differs in the draw counter only. -/
theorem pick_cases (o : Oracle) (s : State) :
    (∃ k, pick o s = .leave (drawn k s) ∧ LoopEnded s) ∨
    (∃ h k, pick o s = .service h (drawn k s) ∧ h ∈ enabledHandlers (dispatchWord s)) := by
  unfold pick
  dsimp only
  by_cases hd : (deferrable s (enabledHandlers (dispatchWord s)) && o.defer s.draws) = true
  · rw [if_pos hd]
    exact .inl ⟨1, rfl, .inr (Bool.and_eq_true_iff.1 hd).1⟩
  · rw [if_neg hd]
    cases hc : choose o (enabledHandlers (dispatchWord s))
        (if deferrable s (enabledHandlers (dispatchWord s)) = true then drawn 1 s else s) with
    | none => exact .inl ⟨0, rfl, .inl (choose_eq_none.1 hc)⟩
    | some p =>
      obtain ⟨h, t⟩ := p
      obtain ⟨hmem, k, rfl⟩ := choose_eq_some hc
      refine .inr ⟨h, if deferrable s (enabledHandlers (dispatchWord s)) = true then k + 1 else k, ?_, hmem⟩
      change Pick.service h (drawn k _) = _
      split
      · simp [drawn]; omega
      · simp [drawn]

/-- A property the draws and every enabled handler keep holds at the end of the loop, which ends as R68 and R69 say. -/
theorem loopFrom_rule {o : Oracle} {Q : State → Prop} (hdraw : ∀ k s, Q s → Q (drawn k s))
    (hserve : ∀ h s t, Q s → h ∈ enabledHandlers (dispatchWord s) → runHandler h s = .next t → Q t) :
    ∀ {n : Nat} {s t : State}, Q s → loopFrom o n s = .next t → Q t ∧ LoopEnded t := by
  intro n
  induction n with
  | zero => intro s t _ h; simp [loopFrom] at h
  | succ n ih =>
    intro s t hq h
    unfold loopFrom at h
    rcases pick_cases o s with ⟨k, hp, hend⟩ | ⟨hd, k, hp, hmem⟩ <;> rw [hp] at h
    · obtain rfl : drawn k s = t := by simpa using h
      exact ⟨hdraw _ _ hq, hend⟩
    · obtain ⟨u, hu, hl⟩ := andThen_eq_next.1 h
      exact ih (hserve _ _ _ (hdraw k _ hq) hmem hu) hl

/-! ### The handlers (R73, R78, R79, R100): everything each can do -/

theorem execSampleMid_eq_next {s t : State} : execSampleMid s = .next t ↔
    ∃ h : s.bitsReceived.val < 8, t = logEvent .sampleMid { s with
      partialByte := shiftIn s.partialByte s.rxd
      bitsReceived := ⟨s.bitsReceived.val + 1, Nat.succ_lt_succ h⟩
      nextSampleDeadline := timeAdd s.params.timeW s.nextSampleDeadline s.params.bitPeriod } := by
  unfold execSampleMid sampleBit
  by_cases h : s.bitsReceived.val < 8 <;> simp [h, eq_comm]

theorem execSampleLast_eq_next {s t : State} : execSampleLast s = .next t ↔
    ∃ h : s.bitsReceived.val < 8, t = logEvent (.sampleLast (shiftIn s.partialByte s.rxd)) (push (shiftIn s.partialByte s.rxd) { s with
      partialByte := shiftIn s.partialByte s.rxd
      bitsReceived := ⟨s.bitsReceived.val + 1, Nat.succ_lt_succ h⟩
      framing := .idle }) := by
  unfold execSampleLast sampleBit
  by_cases h : s.bitsReceived.val < 8
  · simp only [h, dif_pos, andThen_next, Host.Outcome.next.injEq, exists_true_left]
    exact ⟨fun e => e.symm, fun e => e.symm⟩
  · simp [h]

theorem execReply_eq_next {s t : State} : execReply s = .next t ↔
    ∃ u, pop s = .next u ∧ t = logEvent (.reply u.popData) { emitReply u.popData u with reqPending := false } := by
  unfold execReply
  rw [andThen_eq_next]
  simp [eq_comm]

/-! ### TICK and the step -/

/-- The start of a tick goes on exactly when no second request comes (R99). -/
theorem openTick_eq_next {o : Oracle} {req level : Bool} {s t : State} : openTick o req level s = .next t ↔
    (req = true → s.reqPending = false) ∧ t = { presentTick o level s with reqPending := req || s.reqPending } := by
  unfold openTick requestByte
  cases req <;> cases hq : s.reqPending <;> simp [hq, eq_comm] <;> simp [presentTick, hq]

/-- Everything TICK can do when it goes on: the parameters are legal, the inputs are taken, the loop ends, the tick closes (R64). -/
theorem tickWith_eq_next {o : Oracle} {req level : Bool} {s t : State} : tickWith o req level s = .next t ↔
    paramsLegal s.params ∧ ∃ v u, openTick o req level s = .next v ∧ loopFrom o loopBound v = .next u ∧ t = closeTick u := by
  unfold tickWith
  split
  · rename_i hl
    simp only [andThen_eq_next, Host.Outcome.next.injEq]
    constructor
    · rintro ⟨v, hv, u, hu, rfl⟩; exact ⟨hl, v, u, hv, hu, rfl⟩
    · rintro ⟨-, v, u, hv, hu, rfl⟩; exact ⟨v, hv, u, hu, rfl⟩
  · rename_i hl; simp [hl]

/-- An iteration stepped by itself runs an enabled handler, or a WAIT on the unchanged state. -/
theorem iterationOp_eq_some {o : Oracle} {dw : DispatchWord} {s t : State} {i : Instr} (h : iterationOp o dw s = some (i, t)) :
    (∃ hd, i = hd.toInstr ∧ hd ∈ enabledHandlers dw ∧ ∃ k, t = drawn k s) ∨
    (enabledHandlers dw = [] ∧ i ∈ enabledWaits dw ∧ t = s) := by
  unfold iterationOp at h
  cases hc : choose o (enabledHandlers dw) s with
  | some p =>
    rw [hc] at h
    obtain ⟨hm, k, hk⟩ := choose_eq_some (h := p.1) (t := p.2) hc
    simp only [Option.some.injEq, Prod.mk.injEq] at h
    exact .inl ⟨p.1, h.1.symm, hm, k, h.2 ▸ hk⟩
  | none =>
    rw [hc] at h
    simp only [Option.map_eq_some_iff, Prod.mk.injEq] at h
    obtain ⟨j, hj, rfl, rfl⟩ := h
    exact .inr ⟨choose_eq_none.1 hc, List.mem_of_head? hj, rfl⟩

/-- Every input word whose step goes on runs one operation on the state past the word (the draws moved on at most), or selects
none. For a word of the dispatch port the operation is an enabled handler, or a WAIT. -/
theorem step_eq_next {s t : State} (h : step s = .next t) :
    t = dropInput s ∨ ∃ i k, exec i (drawn k (dropInput s)) = .next t ∧
      ((∃ hd, i = hd.toInstr ∧ hd ∈ enabledHandlers (dispatchWord s)) ∨ i ∈ [.waitA, .waitB, .waitC, .waitD] ∨
        (∃ b, i = .push b) ∨ i = .pop ∨ (∃ q l, i = .tick q l) ∨ i = .reset) := by
  unfold step at h
  split at h
  · simp at h
  split at h
  · simp at h
  rename_i w _ _ _ ops hdec
  split at h
  · simp at h
  cases hs : selectOp w ops (dropInput s) with
  | none => rw [hs] at h; simp at h; exact .inl h.symm
  | some p =>
    obtain ⟨i, u⟩ := p
    rw [hs] at h
    unfold selectOp at hs
    split at hs
    · rw [dropInput_dispatchWord] at hs
      rcases iterationOp_eq_some hs with ⟨hd, hi, hm, k, rfl⟩ | ⟨-, hm, rfl⟩
      · exact .inr ⟨i, k, h, .inl ⟨hd, hi, hm⟩⟩
      · exact .inr ⟨i, 0, h, .inr (.inl (mem_enabledWaits hm))⟩
    · rename_i hport
      simp only [Option.map_eq_some_iff, Prod.mk.injEq] at hs
      obtain ⟨j, hj, rfl, rfl⟩ := hs
      refine .inr ⟨j, 0, h, .inr (.inr ?_)⟩
      rcases decode_cases hdec with ⟨hp, -⟩ | ⟨-, rfl | rfl | rfl⟩ | ⟨-, rfl⟩ | ⟨-, rfl | rfl⟩
      · exact absurd hp hport
      · simp at hj
      · simp at hj; exact .inl ⟨_, hj.symm⟩
      · simp at hj; exact .inr (.inl hj.symm)
      · simp [decodeStimulus] at hj; exact .inr (.inr (.inl ⟨_, _, hj.symm⟩))
      · simp at hj
      · simp at hj; exact .inr (.inr (.inr hj.symm))

end Sys2Proof.Machine
end

