-- ==== Sys2Proof/Laws/Invariant.lean ====
section
/-!
SUPPORT. The invariant of Safety.lean, operation by operation: the draws, each enabled handler, PUSH, POP, the start of a tick and
its end. (That the whole step keeps it is a statement, not a lemma.)
-/

namespace Sys2Proof.Machine

/-- The invariant reads neither the draws, the inputs, the outputs nor the traces. -/
theorem Inv.of_same {s t : State} (hi : Inv s) (h1 : t.framing = s.framing) (h2 : t.bitsReceived = s.bitsReceived)
    (h3 : t.nextSampleDeadline = s.nextSampleDeadline) (h4 : t.buf = s.buf) (h5 : t.writeIndex = s.writeIndex)
    (h6 : t.readIndex = s.readIndex) (h7 : t.empty = s.empty) (h8 : t.now = s.now) (h9 : t.params = s.params)
    (h10 : t.ghost.t0 = s.ghost.t0) (h11 : t.ghost.pushed = s.ghost.pushed) (h12 : t.ghost.popped = s.ghost.popped)
    (h13 : t.ghost.overruns = s.ghost.overruns) : Inv t := by
  have hu : unread t = unread s := by simp [unread, h5, h6, h7]
  have ha : ∀ k, unreadAt t k = unreadAt s k := fun k => by simp [unreadAt, h4, h6]
  have hb : unreadBytes t = unreadBytes s := by simp [unreadBytes, hu, ha]
  obtain ⟨hl, ⟨q1, q2, q3⟩, ⟨t1, t2⟩, ⟨r1, r2, r3, r4⟩, hf⟩ := hi
  refine ⟨by rwa [h9], ⟨by rwa [h4], by rwa [h5, h6, h7], by simpa [hu, ha] using q3⟩, ⟨by rwa [h8, h9], by rwa [h3, h9]⟩,
    ⟨by rwa [h1, h2], by rwa [h1, h2], by rwa [h1, h2, h3, h9, h10], by rwa [h1, h3, h8, h9]⟩, ?_⟩
  unfold FifoInv at hf ⊢
  rwa [h11, h12, h13, hb]

theorem Inv.drawn {s : State} (k : Nat) (hi : Inv s) : Inv (drawn k s) := hi.of_same rfl rfl rfl rfl rfl rfl rfl rfl rfl rfl rfl rfl rfl

theorem Inv.dropInput {s : State} (hi : Inv s) : Inv (dropInput s) := hi.of_same rfl rfl rfl rfl rfl rfl rfl rfl rfl rfl rfl rfl rfl

theorem Inv.logEvent {s : State} (e : Event) (hi : Inv s) : Inv (logEvent e s) :=
  hi.of_same rfl rfl rfl rfl rfl rfl rfl rfl rfl rfl rfl rfl rfl

theorem Inv.openTick {s : State} (hi : Inv s) (o : Oracle) (q level : Bool) :
    Inv { presentTick o level s with reqPending := q } :=
  hi.of_same rfl rfl rfl rfl rfl rfl rfl rfl rfl rfl rfl rfl rfl

/-- PUSH touches the queue only. -/
theorem Inv.push {s : State} (hi : Inv s) (b : Byte) : Inv (push b s) :=
  ⟨hi.legal, hi.queue.push b, ⟨hi.time.nowFits, hi.time.deadlineFits⟩,
    ⟨hi.receiver.countReceiving, hi.receiver.countIdle, hi.receiver.deadlineOnGrid, hi.receiver.deadlineNear⟩,
    hi.fifo.push hi.queue b⟩

/-- POP touches the queue only. -/
theorem Inv.pop {s t : State} (hi : Inv s) (hp : pop s = .next t) : Inv t := by
  have hq := hi.queue.pop hp
  have hf := hi.fifo.pop hi.queue hp
  obtain ⟨-, b, -, rfl⟩ := pop_eq_next.1 hp
  exact ⟨hi.legal, hq, ⟨hi.time.nowFits, hi.time.deadlineFits⟩,
    ⟨hi.receiver.countReceiving, hi.receiver.countIdle, hi.receiver.deadlineOnGrid, hi.receiver.deadlineNear⟩, hf⟩

theorem Inv.reply {s t : State} (hi : Inv s) (h : execReply s = .next t) : Inv t := by
  obtain ⟨u, hu, rfl⟩ := execReply_eq_next.1 h
  exact ((hi.pop hu).of_same (t := { emitReply u.popData u with reqPending := false })
    rfl rfl rfl rfl rfl rfl rfl rfl rfl rfl rfl rfl rfl).logEvent _

/-- The queue's part is the same where the queue is the same. -/
theorem QueueInv.of_same {s t : State} (hq : QueueInv s) (h1 : t.buf = s.buf) (h2 : t.writeIndex = s.writeIndex)
    (h3 : t.readIndex = s.readIndex) (h4 : t.empty = s.empty) : QueueInv t := by
  obtain ⟨q1, q2, q3⟩ := hq
  exact ⟨by rwa [h1], by rwa [h2, h3, h4], by simpa [unread, unreadAt, h1, h2, h3, h4] using q3⟩

/-- The bytes' order is the same where the queue and the bytes are the same. -/
theorem FifoInv.of_same {s t : State} (hf : FifoInv s) (h1 : t.buf = s.buf) (h2 : t.writeIndex = s.writeIndex)
    (h3 : t.readIndex = s.readIndex) (h4 : t.empty = s.empty) (h5 : t.ghost.pushed = s.ghost.pushed)
    (h6 : t.ghost.popped = s.ghost.popped) (h7 : t.ghost.overruns = s.ghost.overruns) : FifoInv t := by
  have hb : unreadBytes t = unreadBytes s := by simp [unreadBytes, unread, unreadAt, h1, h2, h3, h4]
  unfold FifoInv at hf ⊢
  rwa [h5, h6, h7, hb]

/-- EDGE starts a byte: the first deadline is FIRST_SAMPLE_DELAY ahead. -/
theorem Inv.edge {s t : State} (hi : Inv s) (h : execEdge s = .next t) : Inv t := by
  simp only [execEdge, Host.Outcome.next.injEq] at h
  subst h
  refine ⟨hi.legal, hi.queue.of_same rfl rfl rfl rfl, ⟨hi.time.nowFits, timeAdd_lt _ _ _⟩, ⟨?_, ?_, ?_, ?_⟩,
    hi.fifo.of_same rfl rfl rfl rfl rfl rfl rfl⟩
  · simp
  · simp
  · simp [timeAdd]
  · simp

/-- While receiving, a reached deadline is `lag` behind `now`, and the lag is at most JITTER_MAX. -/
theorem Inv.due_lag {s : State} (hi : Inv s) (hr : s.framing = .receiving)
    (hd : reached s.params.timeW s.now s.nextSampleDeadline = true) :
    timeSub s.params.timeW (timeAdd s.params.timeW s.now (firstSampleDelay s.params)) s.nextSampleDeadline =
      firstSampleDelay s.params + lag s ∧ lag s ≤ s.params.jitterMax := by
  have hn := hi.receiver.deadlineNear hr
  have hhalf := firstSampleDelay_lt_half hi.legal
  have hw : 1 ≤ s.params.timeW := by have := hi.legal.2.1; omega
  have hge : firstSampleDelay s.params ≤
      timeSub s.params.timeW (timeAdd s.params.timeW s.now (firstSampleDelay s.params)) s.nextSampleDeadline := by
    by_contra hlt
    have hf := not_reached_of_near hw (by omega) (Nat.not_le.1 hlt)
    simp [hf] at hd
  have hl := lag_of_near hge
  unfold lag
  omega

/-- A due deadline moved on by BIT_PERIOD stays in the window. -/
theorem Inv.sampleMid {s t : State} (hi : Inv s) (hm : Handler.sampleMid ∈ enabledHandlers (dispatchWord s))
    (h : execSampleMid s = .next t) : Inv t := by
  obtain ⟨hr, hd, h7⟩ := sampleMid_enabled.1 hm
  obtain ⟨h8, rfl⟩ := execSampleMid_eq_next.1 h
  obtain ⟨hx, hlag⟩ := hi.due_lag hr hd
  have hP := bitPeriod_le_firstSampleDelay s.params
  have h7 : s.bitsReceived.val ≠ 7 := fun h => h7 (Fin.ext h)
  have hc := hi.receiver.countReceiving hr
  refine Inv.logEvent _ ⟨hi.legal, hi.queue.of_same rfl rfl rfl rfl, ⟨hi.time.nowFits, timeAdd_lt _ _ _⟩, ⟨?_, ?_, ?_, ?_⟩,
    hi.fifo.of_same rfl rfl rfl rfl rfl rfl rfl⟩
  · intro _; simp only; omega
  · intro hi'; simp [hr] at hi'
  · intro _
    simp only
    conv => lhs; rw [hi.receiver.deadlineOnGrid hr]
    rw [timeAdd_mod_left, timeAdd, Nat.add_mul, Nat.one_mul, Nat.add_assoc]
  · intro _
    simp only
    rw [timeSub_timeAdd_right (by omega)]
    omega

/-- The eighth sample ends the byte and pushes it. -/
theorem Inv.sampleLast {s t : State} (hi : Inv s) (hm : Handler.sampleLast ∈ enabledHandlers (dispatchWord s))
    (h : execSampleLast s = .next t) : Inv t := by
  obtain ⟨hr, hd, h7⟩ := sampleLast_enabled.1 hm
  obtain ⟨h8, rfl⟩ := execSampleLast_eq_next.1 h
  have h7 : s.bitsReceived.val = 7 := by rw [h7]; rfl
  have hbyte : Inv { s with
      partialByte := shiftIn s.partialByte s.rxd
      bitsReceived := ⟨s.bitsReceived.val + 1, Nat.succ_lt_succ h8⟩
      framing := .idle } := by
    refine ⟨hi.legal, hi.queue.of_same rfl rfl rfl rfl, ⟨hi.time.nowFits, hi.time.deadlineFits⟩, ⟨?_, ?_, ?_, ?_⟩,
      hi.fifo.of_same rfl rfl rfl rfl rfl rfl rfl⟩
    · simp
    · intro _; right; simp only; omega
    · simp
    · simp
  exact (hbyte.push _).logEvent _

/-- Every handler the loop services keeps the invariant. -/
theorem Inv.handler {h : Handler} {s t : State} (hi : Inv s) (hm : h ∈ enabledHandlers (dispatchWord s))
    (hr : runHandler h s = .next t) : Inv t := by
  cases h with
  | edge => exact hi.edge hr
  | sampleMid => exact hi.sampleMid hm hr
  | sampleLast => exact hi.sampleLast hm hr
  | reply => exact hi.reply hr

/-- A tick that ends as R68 and R69 say leaves the deadline in its window one tick later. -/
theorem Inv.closeTick {s : State} (hi : Inv s) (he : LoopEnded s) : Inv (closeTick s) := by
  refine ⟨hi.legal, hi.queue.of_same rfl rfl rfl rfl, ⟨timeAdd_lt _ _ _, hi.time.deadlineFits⟩,
    ⟨hi.receiver.countReceiving, hi.receiver.countIdle, hi.receiver.deadlineOnGrid, fun hr => ?_⟩,
    hi.fifo.of_same rfl rfl rfl rfl rfl rfl rfl⟩
  have hr : s.framing = .receiving := hr
  have hn := hi.receiver.deadlineNear hr
  have hhalf := firstSampleDelay_lt_half hi.legal
  have hw : 1 ≤ s.params.timeW := by have := hi.legal.2.1; omega
  have h2 := two_pow_half hw
  simp only [closeTick_now, closeTick_params, closeTick_nextSampleDeadline]
  rw [timeAdd_assoc, Nat.add_comm 1, ← timeAdd_assoc, timeSub_timeAdd_left (by omega)]
  by_cases hd : reached s.params.timeW s.now s.nextSampleDeadline = true
  · obtain ⟨hx, hlag⟩ := hi.due_lag hr hd
    have : lag s < s.params.jitterMax := by
      rcases he with he | he
      · exfalso
        by_cases h7 : s.bitsReceived = 7
        · have := sampleLast_enabled.2 ⟨hr, hd, h7⟩; simp [he] at this
        · have := sampleMid_enabled.2 ⟨hr, hd, h7⟩; simp [he] at this
      · unfold deferrable at he; simp at he; exact he.2
    omega
  · have : timeSub s.params.timeW (timeAdd s.params.timeW s.now (firstSampleDelay s.params)) s.nextSampleDeadline <
        firstSampleDelay s.params := by
      by_contra hge
      have hl := lag_of_near (Nat.not_lt.1 hge)
      exact hd (reached_iff.2 (by omega))
    omega

end Sys2Proof.Machine
end

