-- ==== Sys2Proof/Laws/PerInstr.lean ====
section
/-!
SUPPORT. Statements made of every operation: that its encoding is a word of its row of spec/opcode_table.json, the row's format, match
and mask transcribed here a second time.
-/

namespace Sys2Proof.Laws.EncodingFits

/-- The format, the match value and the mask of an operation's row. -/
def row : Instr → Port × Byte × Byte
  | .edge => (.dispatch, 0x08, 0x18)
  | .sampleMid => (.dispatch, 0x14, 0x34)
  | .sampleLast => (.dispatch, 0x34, 0x34)
  | .reply => (.dispatch, 0x02, 0x03)
  | .waitA => (.dispatch, 0x00, 0x1A)
  | .waitB => (.dispatch, 0x03, 0x1B)
  | .waitC => (.dispatch, 0x10, 0x16)
  | .waitD => (.dispatch, 0x13, 0x17)
  | .push _ => (.queue, 0x2, 0x3)
  | .pop => (.queue, 0x1, 0x3)
  | .tick _ _ => (.stimulus, 0x0, 0x0)
  | .request => (.stimulus, 0x2, 0x2)
  | .reset => (.rst, 0x1, 0x1)

/-- The encoded word stands at the row's port, fits the format's width, and matches under the row's mask. -/
def Statement (i : Instr) : Prop :=
  (encode i).port = (row i).1.tag ∧ (encode i).word.toNat < 2 ^ (row i).1.width ∧ (encode i).word &&& (row i).2.2 = (row i).2.1

theorem edge : Statement .edge := by unfold Statement; decide
theorem sampleMid : Statement .sampleMid := by unfold Statement; decide
theorem sampleLast : Statement .sampleLast := by unfold Statement; decide
theorem reply : Statement .reply := by unfold Statement; decide
theorem waitA : Statement .waitA := by unfold Statement; decide
theorem waitB : Statement .waitB := by unfold Statement; decide
theorem waitC : Statement .waitC := by unfold Statement; decide
theorem waitD : Statement .waitD := by unfold Statement; decide
theorem push (b : Byte) : Statement (.push b) := by unfold Statement; simp only [encode, row]; decide
theorem pop : Statement .pop := by unfold Statement; decide
theorem tick (req rxd : Bool) : Statement (.tick req rxd) := by cases req <;> cases rxd <;> unfold Statement <;> decide
theorem request : Statement .request := by unfold Statement; decide
theorem reset : Statement .reset := by unfold Statement; decide

end Sys2Proof.Laws.EncodingFits
end

