-- ==== Sys2Proof/Tests/Slice0.lean ====
section
/-!
SUPPORT. The model's own tests. Expected values come from spec/95_test_vectors.md (the vector's id stands in each comment) or are
worked out by hand from the rule named. Then, for each statement with hypotheses, a state that meets them together.
-/

namespace Sys2Proof.Tests

open Sys2Proof.Machine

/-! ### Small states -/

/-- `P = 8`, `TIME_W = 8`, one fixed order of service. -/
def params8 : Params := { bitPeriod := 8, timeW := 8, jitterMax := 0, dispatchOrder := [[.edge, .sample, .reply]] }

/-- The state after reset with `now`. -/
def after (now : Nat) : State := State.resetTo params8 now 0 0

/-- Receiving, `n` bits in, the next sample due at 16 and `now` 16; `t0` is `16 - 12 - 8 n`. -/
def dueState (n : Fin 9) : State :=
  { after 16 with
    framing := .receiving, bitsReceived := n, nextSampleDeadline := 16,
    ghost := { Ghost.start with t0 := (16 + 256 - 12 - 8 * n.val) % 256 } }

/-- A full queue with both indices 5, all ten elements written; `buf[5]` is the oldest. -/
def fullState : State := pushAll [5, 6, 7, 8, 9, 10, 11, 12, 13, 14] { after 0 with writeIndex := 5, readIndex := 5 }

/-- A queue of one byte. -/
def oneByte : State := push 0x0D (after 0)

/-- Whether an outcome is a next state. -/
def goesOn (x : Host.Outcome State Fault Refusal) : Bool := match x with
  | .next _ => true
  | _ => false

/-- A predicate of the next state of an outcome. -/
def nextHas (x : Host.Outcome State Fault Refusal) (p : State → Bool) : Bool := match x with
  | .next s => p s
  | _ => false

/-- A refusal's reason. -/
def refusal (x : Host.Outcome State Fault Refusal) : Option Refusal := match x with
  | .refused r => some r
  | _ => none

theorem exists_of_nextHas {x : Host.Outcome State Fault Refusal} {p : State → Bool} (h : nextHas x p = true) :
    ∃ t, x = .next t ∧ p t = true := by
  cases x with
  | next t => exact ⟨t, rfl, h⟩
  | fault r => simp [nextHas] at h
  | refused r => simp [nextHas] at h

/-! ### Well-formedness: an ill-formed term for each check -/

theorem test_unknown_port : OpWord.knownPort ⟨0, 4, 0⟩ = false := by decide
theorem test_word_too_wide : OpWord.fits ⟨0x40, 0, 0⟩ = false := by decide
theorem test_stray_data : OpWord.dataOnlyOnQueue ⟨1, 2, 0x41⟩ = false := by decide
theorem test_push_and_pop : OpWord.noPushAndPop ⟨3, 1, 0⟩ = false := by decide
theorem test_ill_formed_words_refused :
    [(⟨0, 4, 0⟩ : OpWord), ⟨0x40, 0, 0⟩, ⟨1, 2, 0x41⟩, ⟨3, 1, 0⟩].map OpWord.wellFormed = [false, false, false, false] := by decide
theorem test_request_outside_program : Statement.requestsInside 8 [.hi 3, .req 3] = false := by decide
theorem test_two_requests_in_a_tick : Statement.requestsDistinct [.hi 3, .req 1, .req 1] = false := by decide
theorem test_origin_too_large : Statement.originInRange [.param none (some 8) (some 256) none] = false := by decide
theorem test_program_refused : [[Statement.hi 3, .req 3], [.hi 3, .req 1, .req 1], [.param none (some 8) (some 256) none], [.hi 3, .req 2]].map
    (Statement.wellFormed 8) = [false, false, false, true] := by decide
theorem test_params_bit_period_one : ¬ paramsLegal { params8 with bitPeriod := 1 } := by decide
theorem test_params_narrow_time : ¬ paramsLegal { params8 with timeW := 7 } := by decide
theorem test_params_time_too_short : ¬ paramsLegal { params8 with bitPeriod := 13 } := by decide
theorem test_params_jitter : ¬ paramsLegal { params8 with jitterMax := 4 } := by decide
theorem test_params_no_order : ¬ paramsLegal { params8 with dispatchOrder := [] } := by decide
theorem test_params_not_an_order : ¬ paramsLegal { params8 with dispatchOrder := [[.edge, .sample]] } := by decide

/-! ### Decoding: words written out from the spec's tables -/

/-- K3 to K6. -/
theorem test_decode_dispatch_idle :
    [0b000010#6, 0b001001, 0b001010, 0b001011].map decodeDispatch = [[.reply], [.edge], [.edge, .reply], [.edge]] := by decide
/-- K10, K12 to K16. -/
theorem test_decode_dispatch_receiving :
    [0b010101#6, 0b010110, 0b110101, 0b110110, 0b110111, 0b110010].map decodeDispatch =
      [[.sampleMid], [.sampleMid, .reply], [.sampleLast], [.sampleLast, .reply], [.sampleLast], [.reply]] := by decide
/-- K1, K2, K7, K8, K9 and K17. -/
theorem test_decode_wait : [0b000001#6, 0b000011, 0b010001, 0b011001, 0b010011, 0b100001, 0b000101].map decodeDispatch =
    [[.waitA], [.waitB], [.waitC], [.waitC], [.waitD], [.waitA], [.waitA]] := by decide
/-- R56: QC = 0b10 is PUSH, 0b01 is POP. -/
theorem test_decode_queue : (decode ⟨0b10, 1, 0x41⟩, decode ⟨0b01, 1, 0⟩) = (.ok [.push 0x41], .ok [.pop]) := by rfl
/-- R56: POP and no operation do not look at pushData; 0b11 is refused beside any. -/
theorem test_decode_queue_data : (decode ⟨0b01, 1, 0x41⟩, decode ⟨0b00, 1, 0x41⟩, decode ⟨0b11, 1, 0x41⟩) =
    (.ok [.pop], .ok [], .error .queueCommandBoth) := by rfl
/-- R55: the digits 1 and 2. -/
theorem test_decode_stimulus : (decode ⟨1, 2, 0⟩, decode ⟨2, 2, 0⟩) = (.ok [.tick false true], .ok [.tick true false, .request]) := by rfl
/-- R59. -/
theorem test_decode_rst : (decode ⟨1, 3, 0⟩, decode ⟨0, 3, 0⟩) = (.ok [.reset], .ok []) := by rfl
/-- A malformed word is refused by name. -/
theorem test_decode_refuses : (decodeBytes [3, 1, 0], decodeBytes [0x40, 0, 0], decodeBytes [0, 4, 0], decodeBytes [0]) =
    (.error .queueCommandBoth, .error .reservedBits, .error .unknownPort, .error .truncated) := by rfl
/-- The eight dispatch rows in the opcode table's own numbering. -/
theorem test_decode_table_words : [0x08, 0x14, 0x34, 0x02, 0x00, 0x03, 0x10, 0x13].map (decodeTableWord 8) =
    [some .edge, some .sampleMid, some .sampleLast, some .reply, some .waitA, some .waitB, some .waitC, some .waitD] := by decide
/-- Every dispatch word, the unreachable ones too, runs as the first operation after reset. -/
theorem test_first_step : ∀ dw : DispatchWord, goesOn (step ((after 0).withFetchWord 8 dw.toNat)) = true := by decide
/-- And the other formats with their port's tag. -/
theorem test_first_step_others : ([0x410102, 0x0200, 0x0203, 0x0301].all fun w => goesOn (step (State.reset.withFetchWord 24 w))) = true := by
  decide

/-! ### Primitives -/

/-- A1 to A5. -/
theorem test_first_sample_delay : [2, 3, 8, 9, 868].map (fun p => firstSampleDelay { params8 with bitPeriod := p }) = [3, 4, 12, 13, 1302] := by
  decide
/-- A6 to A11. -/
theorem test_reached : [(16, 16), (15, 16), (17, 16), (252, 8), (8, 8), (9, 8), (143, 16), (144, 16)].map (fun x => reached 8 x.1 x.2) =
    [true, false, true, false, true, true, true, false] := by decide
/-- A12 to A15. -/
theorem test_unread : [(true, 4, 4), (false, 4, 4), (false, 2, 7), (false, 7, 2)].map
    (fun x : Bool × Fin 10 × Fin 10 => unread { after 0 with empty := x.1, writeIndex := x.2.1, readIndex := x.2.2 }) = [0, 10, 5, 5] := by decide
/-- M3, M4: the logical shift. -/
theorem test_shift_in : [shiftIn 0xFF false, shiftIn 0x01 false, shiftIn 0x80 false, shiftIn 0 true] = [0x7F, 0x00, 0x40, 0x80] := by decide

/-! ### EDGE -/

/-- E2: the second byte; the accumulator is not cleared. -/
theorem test_edge : nextHas (exec .edge { after 100 with bitsReceived := 8, partialByte := 0x0D }) (fun t =>
    t.framing == .receiving && t.bitsReceived == 0 && t.nextSampleDeadline == 112 && t.partialByte == 0x0D) = true := by decide
/-- E3: the deadline wraps. -/
theorem test_edge_wraps : nextHas (exec .edge (after 252)) (fun t => t.nextSampleDeadline == 8) = true := by decide

/-! ### SAMPLE_MID, SAMPLE_LAST -/

/-- M3, M5: the shift, and a deadline that wraps. -/
theorem test_sample_mid : nextHas (exec .sampleMid { dueState 3 with partialByte := 0xFF, rxd := false, nextSampleDeadline := 252 }) (fun t =>
    t.partialByte == 0x7F && t.bitsReceived == 4 && t.nextSampleDeadline == 4 && t.framing == .receiving) = true := by decide
/-- M6: the deadline is moved on from the old deadline, not from `now`. -/
theorem test_sample_mid_late : nextHas (exec .sampleMid { dueState 2 with now := 33, nextSampleDeadline := 32 }) (fun t =>
    t.nextSampleDeadline == 40) = true := by decide
/-- L1. -/
theorem test_sample_last : nextHas (exec .sampleLast { dueState 7 with partialByte := 0x1A, rxd := false }) (fun t =>
    t.partialByte == 0x0D && t.bitsReceived == 8 && t.framing == .idle && t.buf == [(0, 0x0D)] && t.writeIndex == 1 && !t.empty &&
      t.nextSampleDeadline == 16) = true := by decide
/-- L3: overrun, silent. -/
theorem test_sample_last_full :
    nextHas (exec .sampleLast { fullState with framing := .receiving, bitsReceived := 7, partialByte := 0, rxd := false }) (fun t =>
      t.buf.read? 5 == some 0 && t.writeIndex == 6 && t.readIndex == 5 && !t.empty && unread t == 1) = true := by decide

/-! ### PUSH, POP, REQUEST, REPLY -/

/-- R87's worked example: the write index wraps. -/
theorem test_push : nextHas (exec (.push 0x41) { after 0 with writeIndex := 9, readIndex := 3, empty := false }) (fun t =>
    t.buf.read? 9 == some 0x41 && t.writeIndex == 0 && t.readIndex == 3 && !t.empty) = true := by decide
/-- Q5 (X1 refuted): after twelve pushes two POPs return b11, b12 and the queue is empty. -/
theorem test_twelve_pushes :
    (match popMany 2 (pushAll [1, 2, 3, 4, 5, 6, 7, 8, 9, 10, 11, 12] (after 0)) with
      | .next (bs, t) => bs == [11, 12] && t.empty
      | _ => false) = true := by decide
/-- R88's worked example: the popped element keeps its byte. -/
theorem test_pop : nextHas (exec .pop oneByte) (fun t => t.popData == 0x0D && t.readIndex == 1 && t.empty && t.buf == [(0, 0x0D)]) = true := by
  decide
/-- Q9. -/
theorem test_pop_empty : refusal (exec .pop (after 0)) = some .popWhenEmpty := by decide
/-- H5. -/
theorem test_request_pending : refusal (exec (.tick true true) { after 0 with reqPending := true }) = some .requestWhilePending := by decide
/-- R98: nothing else changes. -/
theorem test_request : exec .request (after 0) = .next { after 0 with reqPending := true } := by rfl
/-- R100's worked example. -/
theorem test_reply : nextHas (exec .reply { oneByte with reqPending := true }) (fun t =>
    t.rspValid && t.rspData == 0x0D && t.readIndex == 1 && t.empty && !t.reqPending) = true := by decide
/-- Q10 against Q11: the order on a full queue. -/
theorem test_reply_on_full : (nextHas (andThen (exec .reply fullState) (exec (.push 99))) (fun t => t.rspData == 5 && unread t == 10) &&
    nextHas (andThen (exec (.push 99) fullState) (exec .reply)) (fun t => t.rspData == 99 && t.empty)) = true := by decide

/-! ### WAIT, TICK, RESET -/

/-- R70. -/
theorem test_wait : exec .waitB { after 0 with reqPending := true } = .next { after 0 with reqPending := true } := by rfl
/-- H4: the byte is pushed and delivered in one tick. -/
theorem test_tick_sample_then_reply : nextHas (exec (.tick false true) { dueState 7 with reqPending := true }) (fun t =>
    t.rspValid && t.rspData == 0x80 && t.empty && !t.reqPending && t.framing == .idle && t.now == 17) = true := by decide
/-- E5, Z3: a falling edge while receiving and not due enables nothing. -/
theorem test_tick_edge_ignored : nextHas (exec (.tick false false) { dueState 3 with now := 11 }) (fun t =>
    t.framing == .receiving && t.bitsReceived == 3 && t.nextSampleDeadline == 16 && !t.prevLevel && t.ghost.events == []) = true := by decide
/-- Z1. -/
theorem test_reset : nextHas (exec .reset { fullState with framing := .receiving, bitsReceived := 5, reqPending := true, prevLevel := false })
    (fun t => t.framing == .idle && t.bitsReceived == 0 && t.writeIndex == 0 && t.readIndex == 0 && t.empty && !t.reqPending && t.prevLevel &&
      t.buf == [] && !t.rspValid) = true := by decide
/-- R56: a word that selects no operation only passes. -/
theorem test_step_no_operation : step { after 0 with inputs := [⟨0, 1, 0⟩] } = .next (after 0) := by rfl
/-- P1's first eight digits: `1x4 0x4`. -/
theorem test_program_words : (programWords [.idle 4, .frame 0x0D, .idle 4, .req 80]).length = 88 ∧
    ((programWords [.idle 4, .frame 0x0D, .idle 4, .req 80]).take 8).map OpWord.word = [1, 1, 1, 1, 0, 0, 0, 0] := by decide
/-- P1's trace line for the tick of two handlers. -/
theorem test_trace_lines : traceLines [(2, .edge), (70, .sampleLast 0xA5), (70, .reply 0xA5)] =
    [(2, [.edge]), (70, [.sampleLast 0xA5, .reply 0xA5])] := by decide
/-- The rejected reading of R8 would have kept b3 to b12 (90_conflicts.md C1): after twelve pushes under it ten bytes are unread. -/
theorem test_rejected_policy :
    (let s := [1, 2, 3, 4, 5, 6, 7, 8, 9, 10, 11, 12].foldl (fun s b => pushUnder .dropOldest b s) (after 0)
     unread s == 10 && unreadAt s 0 == some 3) = true := by decide

/-! ### Witnesses: states that meet the statements' hypotheses -/

/-- `P = 8`, JITTER_MAX 1, every order of service. -/
def paramsJitter : Params := { params8 with jitterMax := 1, dispatchOrder := ServiceOrder.all }

/-- Draws that always defer. -/
def deferring : Oracle := { order := fun _ => 0, defer := fun _ => true, byte := fun _ => 0, time := fun _ => 0 }

/-- The last sample due, the line high in the tick before, the queue empty, no request yet. -/
def busyState : State := { dueState 7 with prevLevel := true }

/-- One tick before the last sample is due. -/
def lateState : State := { dueState 7 with now := 15 }

/-- Nine unread bytes, the last sample due. -/
def nineUnread : State := pushAll [1, 2, 3, 4, 5, 6, 7, 8, 9] (dueState 7)

/-- A state with one input word. -/
def fed (w : OpWord) (s : State) : State := { s with inputs := [w] }

theorem witness_inv_after : Inv (after 0) :=
  ⟨by decide, ⟨by decide, by decide, by decide⟩, ⟨by decide, by decide⟩, ⟨by decide, by decide, by decide, by decide⟩, by unfold FifoInv; decide⟩

theorem witness_inv_due : Inv busyState :=
  ⟨by decide, ⟨by decide, by decide, by decide⟩, ⟨by decide, by decide⟩, ⟨by decide, by decide, by decide, by decide⟩, by unfold FifoInv; decide⟩

theorem witness_inv_one : Inv oneByte :=
  ⟨by decide, ⟨by decide, by decide, by decide⟩, ⟨by decide, by decide⟩, ⟨by decide, by decide, by decide, by decide⟩, by unfold FifoInv; decide⟩

theorem witness_queue_full : QueueInv fullState ∧ fullState.empty = false ∧ fullState.writeIndex = fullState.readIndex ∧ unread fullState = 10 ∧
    fullState.bitsReceived.val < 8 := ⟨⟨by decide, by decide, by decide⟩, by decide, by decide, by decide, by decide⟩

/-- GuardsEnableHandlers: the clause about the idle deadline. -/
theorem witness_idle : (after 0).framing = .idle := by decide
/-- SampleMidShiftsOneBit, SampleLastPushesTheByte at the ends of the count, and SampleBeyondEightBitsIsRefused. -/
theorem witness_sample_count : (dueState 0).bitsReceived.val < 8 ∧ (dueState 7).bitsReceived.val < 8 ∧ (dueState 8).bitsReceived.val = 8 := by
  decide
/-- PopTakesTheOldestByte, ReplyDrivesTheOldestByte. -/
theorem witness_pop : oneByte.empty = false ∧ oneByte.buf.read? oneByte.readIndex.val = some 0x0D := by decide
/-- PopOnEmptyQueueIsRefused; RequestBecomesPending. -/
theorem witness_empty : (after 0).empty = true ∧ (after 0).reqPending = false := by decide
/-- PopOfUnwrittenElementFaults. -/
theorem witness_unwritten : ({ after 0 with empty := false } : State).empty = false ∧
    ({ after 0 with empty := false } : State).buf.read? 0 = none := by decide
/-- SecondRequestHasNoMove, both clauses. -/
theorem witness_pending : ({ after 0 with reqPending := true } : State).reqPending = true ∧
    paramsLegal ({ after 0 with reqPending := true } : State).params := by decide
/-- GhostQuantitiesRecordWhatRan: each clause goes on; the overrun is counted. -/
theorem witness_ghost : ([exec .edge (after 0), exec .sampleMid (dueState 3), exec .sampleLast (dueState 7), exec .pop oneByte,
    exec .reply oneByte, exec .reset fullState].all goesOn) = true ∧
    nextHas (exec (.push 0) fullState) (fun t => t.ghost.overruns == 1) = true := by decide
/-- TickCompletes, with a request. -/
theorem witness_tick_completes : Inv busyState ∧ (true = true → busyState.reqPending = false) := ⟨witness_inv_due, by decide⟩
/-- QuietTickKeepsTheState: a falling edge while receiving (not due), a low line while idle, a request on an empty queue. -/
theorem witness_quiet :
    enabledHandlers (dispatchWord { busyState with now := 11, rxd := false, reqPending := false || busyState.reqPending }) = [] ∧
    enabledHandlers (dispatchWord { after 0 with prevLevel := false, rxd := false, reqPending := false || (after 0).reqPending }) = [] ∧
    enabledHandlers (dispatchWord { after 0 with rxd := true, reqPending := true || (after 0).reqPending }) = [] ∧
    (after 0).reqPending = false ∧ paramsLegal busyState.params ∧ paramsLegal (after 0).params := by decide
/-- AtMostThreeHandlersInATick, at the bound; RequestOnEmptyQueueWaitsForTheNextByte; RequestIsAnsweredWhenAByteIsThere's setting;
RspValidExactlyWhenAReplyRan (1); TickWritesAtMostOneElement; DeliveryKeepsProductionOrder. -/
theorem witness_three_handlers : Inv busyState ∧ DeliveryInv busyState ∧ busyState.empty = true ∧ ∃ t,
    tickWith deferring true false busyState = .next t ∧ (t.ghost.events.length == 3 && t.rspValid) = true :=
  ⟨witness_inv_due, by unfold DeliveryInv; decide, by decide, exists_of_nextHas (by decide)⟩
/-- DeliveryKeepsProductionOrder: RESET. -/
theorem witness_reset : ∃ t, resetWith deferring fullState = .next t := ⟨_, rfl⟩
/-- NoEnabledHandlerIsLeftWaiting with JITTER_MAX 0, and with a SAMPLE left pending. -/
theorem witness_left : busyState.params.jitterMax = 0 ∧
    ∃ t, tickWith deferring false true { busyState with params := paramsJitter } = .next t ∧ (t.framing == .receiving) = true :=
  ⟨by decide, exists_of_nextHas (by decide)⟩
/-- EveryEnabledHandlerMayBeServed, both clauses. -/
theorem witness_served :
    let s : State := { oneByte with params := paramsJitter, reqPending := true, prevLevel := true, rxd := false }
    let d : State := { dueState 7 with params := paramsJitter }
    s.params.dispatchOrder = ServiceOrder.all ∧ enabledHandlers (dispatchWord s) = [.edge, .reply] ∧
      deferrable d (enabledHandlers (dispatchWord d)) = true := by decide
/-- OrderOfServiceDoesNotMatterUnlessFull at nine and at one unread byte. -/
theorem witness_order : (QueueInv nineUnread ∧ unread nineUnread = 9 ∧ nineUnread.bitsReceived.val < 8) ∧
    QueueInv oneByte ∧ unread oneByte = 1 ∧ oneByte.bitsReceived.val < 8 :=
  ⟨⟨⟨by decide, by decide, by decide⟩, by decide, by decide⟩, ⟨by decide, by decide, by decide⟩, by decide, by decide⟩
/-- EdgeInTheTickOfTheEighthSample. -/
theorem witness_eighth_edge : Inv busyState ∧ busyState.params.jitterMax = 0 ∧ busyState.framing = .receiving ∧ busyState.bitsReceived.val = 7 ∧
    reached 8 busyState.now busyState.nextSampleDeadline = true ∧ busyState.prevLevel = true ∧
    ∃ t, exec (.tick true false) busyState = .next t ∧ (t.framing == .receiving) = true :=
  ⟨witness_inv_due, by decide, by decide, by decide, by decide, by decide, exists_of_nextHas (by decide)⟩
/-- OnlyTheEighthSampleEndsAByte; RspValidExactlyWhenAReplyRan (0). -/
theorem witness_byte_ends : Inv busyState ∧ busyState.framing = .receiving ∧
    ∃ t, tickWith deferring false true busyState = .next t ∧ (t.framing == .idle && !t.rspValid) = true :=
  ⟨witness_inv_due, by decide, exists_of_nextHas (by decide)⟩
/-- AByteEndsInBoundedTime, at the bound: the tick before the last sample's. -/
theorem witness_bound : Inv lateState ∧ ∃ t, tickWith deferring false true lateState = .next t ∧
    (t.framing == .receiving && timeSub 8 t.now t.ghost.t0 == 12 + 7 * 8) = true :=
  ⟨⟨by decide, ⟨by decide, by decide, by decide⟩, ⟨by decide, by decide⟩, ⟨by decide, by decide, by decide, by decide⟩,
    by unfold FifoInv; decide⟩, exists_of_nextHas (by decide)⟩
/-- RequestIsAnsweredWhenAByteIsThere: a request answered, and one that waits. -/
theorem witness_answered : oneByte.empty = false ∧ (∃ t, tickWith deferring true true oneByte = .next t ∧ t.rspValid = true) ∧
    ∃ t, tickWith deferring true true (after 0) = .next t ∧ t.reqPending = true :=
  ⟨by decide, exists_of_nextHas (p := fun t => t.rspValid) (by decide), exists_of_nextHas (p := fun t => t.reqPending) (by decide)⟩
/-- UnreadCountsTheBytes: POP, PUSH at nine and at ten unread bytes, and none. -/
theorem witness_unread : (∃ t, exec .pop fullState = .next t ∧ (unread t == 9) = true) ∧
    (∃ t, exec (.push 0) nineUnread = .next t ∧ (unread t == 10) = true) ∧
    (∃ t, exec (.push 0) fullState = .next t ∧ (unread t == 1) = true) ∧ unread (after 0) = 0 :=
  ⟨exists_of_nextHas (by decide), exists_of_nextHas (by decide), exists_of_nextHas (by decide), by decide⟩
/-- QueueReturnsBytesInOrder at length ten; OverrunDeliversFromTheEleventhByte at eleven and twenty. -/
theorem witness_byte_lists : QueueInv (after 0) ∧ (after 0).empty = true ∧ (List.replicate 10 (0 : Byte)).length ≤ 10 ∧
    10 < (List.replicate 11 (0 : Byte)).length ∧ (List.replicate 20 (0 : Byte)).length ≤ 20 :=
  ⟨witness_inv_after.queue, by decide, by decide, by decide, by decide⟩
/-- EightSamplesAssembleTheByte. -/
theorem witness_eight_levels : (dueState 0).bitsReceived.val = 0 ∧ (List.replicate 8 true).length = 8 := by decide
/-- AFrameIsReceived, from an idle block with bytes unread. -/
theorem witness_frame : ∃ s : State, Inv s ∧ s.framing = .idle ∧ s.prevLevel = true ∧ s.params.jitterMax = 0 ∧
    s.inputs = frameTicks s.params.bitPeriod 0x0D (firstSampleDelay s.params + 7 * s.params.bitPeriod + 1) ++ [] :=
  ⟨{ oneByte with inputs := frameTicks 8 0x0D 69 },
    witness_inv_one.of_same rfl rfl rfl rfl rfl rfl rfl rfl rfl rfl rfl rfl rfl, by decide, by decide, by decide, by simp; rfl⟩
/-- ReachedAgreesWithUnboundedTime at both ends of its range. -/
theorem witness_reached : (1 ≤ 8 ∧ 177 < 50 + 2 ^ 7 ∧ 50 ≤ 177 + 2 ^ 7) ∧ (1 ≤ 8 ∧ 50 < 178 + 2 ^ 7 ∧ 178 ≤ 50 + 2 ^ 7) := by decide
/-- ConsumerNeverDisturbsTheReceiver: a request pending beside none. -/
theorem witness_consumer : busyState.params.jitterMax = 0 ∧ receiverView { busyState with reqPending := true } = receiverView busyState ∧
    (∃ t, tickWith deferring true false busyState = .next t ∧ (t.framing == .receiving) = true) ∧
    ∃ t, tickWith deferring false false { busyState with reqPending := true } = .next t ∧ (t.framing == .receiving) = true :=
  ⟨by decide, by decide, exists_of_nextHas (by decide), exists_of_nextHas (by decide)⟩
/-- UnspecifiedResetValuesNeverLeak: an idle block with another accumulator and deadline, and a byte half assembled. -/
theorem witness_leak :
    AgreeOnDefined (fed ⟨1, 2, 0⟩ (after 0)) { fed ⟨1, 2, 0⟩ (after 0) with partialByte := 0xFF, nextSampleDeadline := 99 } ∧
    AgreeOnDefined { dueState 3 with partialByte := 0xA0 } { dueState 3 with partialByte := 0xBF } ∧
    ∃ t, step (fed ⟨1, 2, 0⟩ (after 0)) = .next t ∧ (t.now == 1) = true :=
  ⟨⟨rfl, fun h => by revert h; decide⟩, ⟨rfl, fun _ => ⟨rfl, by decide⟩⟩, exists_of_nextHas (by decide)⟩
/-- StepRunsTheDecodedOperation, each clause. -/
theorem witness_step_words : (fed (stimulusWord true false) (after 0)).inputs = [stimulusWord true false] ∧
    (fed (encode .reset) (after 0)).inputs = [encode .reset] ∧ (fed (encode (.push 0x41)) (after 0)).inputs = [encode (.push 0x41)] ∧
    (fed ⟨1, 1, 0xFF⟩ oneByte).inputs = [⟨1, 1, 0xFF⟩] ∧ (fed ⟨0, 1, 0xFF⟩ (after 0)).inputs = [⟨0, 1, 0xFF⟩] ∧
    (fed ⟨0, 3, 0⟩ (after 0)).inputs = [⟨0, 3, 0⟩] := by decide
/-- StepOfADispatchWord: the idle block's own word is 0b000001, a WAIT; 0b000010 is not its own. -/
theorem witness_dispatch_words : decode ⟨1, 0, 0⟩ = .ok [.waitA] ∧ [.waitA] = decodeDispatch (dispatchWord (fed ⟨1, 0, 0⟩ (after 0))) ∧
    decode ⟨2, 0, 0⟩ = .ok [.reply] ∧ [.reply] ≠ decodeDispatch (dispatchWord (fed ⟨2, 0, 0⟩ (after 0))) :=
  ⟨by rfl, by decide, by rfl, by decide⟩
/-- DecoderAcceptsExactlyWellFormedWords: each check failed alone. -/
theorem witness_ill_formed : OpWord.knownPort ⟨0, 4, 0⟩ = false ∧ (OpWord.knownPort ⟨0x40, 0, 0⟩ = true ∧ OpWord.fits ⟨0x40, 0, 0⟩ = false) ∧
    (OpWord.knownPort ⟨1, 2, 0x41⟩ = true ∧ OpWord.fits ⟨1, 2, 0x41⟩ = true ∧ OpWord.dataOnlyOnQueue ⟨1, 2, 0x41⟩ = false) ∧
    OpWord.knownPort ⟨3, 1, 0⟩ = true ∧ OpWord.fits ⟨3, 1, 0⟩ = true ∧ OpWord.dataOnlyOnQueue ⟨3, 1, 0⟩ = true ∧
    OpWord.noPushAndPop ⟨3, 1, 0⟩ = false := by decide
/-- StepWithoutAUsableWordIsRefused. -/
theorem witness_no_word : (after 0).inputs = [] ∧ (fed ⟨3, 1, 0⟩ (after 0)).inputs = [⟨3, 1, 0⟩] ∧
    decode ⟨3, 1, 0⟩ = .error .queueCommandBoth := ⟨by decide, by decide, by rfl⟩
/-- StepUsesOneWordAndKeepsTheParameters, EveryStepKeepsTheInvariant, NoStepFaultsFromTheInvariant. -/
theorem witness_step : Inv (fed ⟨2, 2, 0⟩ busyState) ∧ ∃ t, step (fed ⟨2, 2, 0⟩ busyState) = .next t ∧ (t.ghost.events.length == 3) = true :=
  ⟨witness_inv_due.of_same rfl rfl rfl rfl rfl rfl rfl rfl rfl rfl rfl rfl rfl, exists_of_nextHas (by decide)⟩
/-- InvariantHoldsAfterReset at the largest times. -/
theorem witness_reset_values : paramsLegal params8 ∧ 255 < 2 ^ params8.timeW := by decide
/-- StateCodesRoundTripAndReservedCodesAreRefused: the first reserved code of each item. -/
theorem witness_codes : 8 < (9#4).toNat ∧ 9 < (10#4).toNat := by decide

end Sys2Proof.Tests
end

section
/-!
The dispatch word's map (30_encoding.md R51, R52): what each row selects, and that the WAIT rows are the words no handler row takes.
-/

namespace Sys2Proof

/-! ### The rows, by mask and pattern -/

/-- A handler is enabled by its own row of R52's table. -/
theorem mem_enabledHandlers {h : Handler} {dw : DispatchWord} :
    h ∈ enabledHandlers dw ↔ ∃ r ∈ handlerRows, dw &&& r.mask = r.pattern ∧ r.handler = h := by
  simp [enabledHandlers]

theorem edge_mem_enabledHandlers {dw : DispatchWord} : Handler.edge ∈ enabledHandlers dw ↔ dw &&& 0x18 = 0x08 := by
  simp [mem_enabledHandlers, handlerRows]

theorem sampleMid_mem_enabledHandlers {dw : DispatchWord} : Handler.sampleMid ∈ enabledHandlers dw ↔ dw &&& 0x34 = 0x14 := by
  simp [mem_enabledHandlers, handlerRows]

theorem sampleLast_mem_enabledHandlers {dw : DispatchWord} : Handler.sampleLast ∈ enabledHandlers dw ↔ dw &&& 0x34 = 0x34 := by
  simp [mem_enabledHandlers, handlerRows]

theorem reply_mem_enabledHandlers {dw : DispatchWord} : Handler.reply ∈ enabledHandlers dw ↔ dw &&& 0x03 = 0x02 := by
  simp [mem_enabledHandlers, handlerRows]

/-! ### The two halves of the map do not mix -/

theorem Handler.toInstr_injective : Function.Injective Handler.toInstr := by
  intro h k; cases h <;> cases k <;> simp [Handler.toInstr]

theorem Handler.toInstr_not_wait (h : Handler) : h.toInstr ∉ [Instr.waitA, .waitB, .waitC, .waitD] := by
  cases h <;> decide

theorem toInstr_mem_decodeDispatch {h : Handler} {dw : DispatchWord} : h.toInstr ∈ decodeDispatch dw ↔ h ∈ enabledHandlers dw := by
  have hw : h.toInstr ∉ enabledWaits dw := fun hm => h.toInstr_not_wait (mem_enabledWaits hm)
  simp [decodeDispatch, hw, List.mem_map_of_injective Handler.toInstr_injective]

theorem wait_mem_decodeDispatch {v : Instr} {dw : DispatchWord} (hv : v ∈ [Instr.waitA, .waitB, .waitC, .waitD]) :
    v ∈ decodeDispatch dw ↔ v ∈ enabledWaits dw := by
  have hh : v ∉ (enabledHandlers dw).map Handler.toInstr := by
    intro hm
    obtain ⟨h, -, rfl⟩ := List.mem_map.mp hm
    exact h.toInstr_not_wait hv
  simp only [decodeDispatch, List.mem_append, hh, false_or]

/-! ### The WAIT rows -/

/-- The WAIT row a dispatch word can match: `receiving` (bit 4) and `reqPending` (bit 1) choose it among the four. -/
def waitRowOf (dw : DispatchWord) : Instr :=
  match dw.getLsbD 4, dw.getLsbD 1 with
  | false, false => .waitA
  | false, true => .waitB
  | true, false => .waitC
  | true, true => .waitD

/-- The WAIT rows take exactly the words the handler rows leave, and each of those matches one WAIT row. -/
theorem enabledWaits_eq (dw : DispatchWord) : enabledWaits dw = if enabledHandlers dw = [] then [waitRowOf dw] else [] := by
  revert dw; decide

theorem mem_enabledWaits_iff {v : Instr} {dw : DispatchWord} : v ∈ enabledWaits dw ↔ enabledHandlers dw = [] ∧ v = waitRowOf dw := by
  rw [enabledWaits_eq]; split <;> simp [*]

theorem exists_wait_iff_no_handler (dw : DispatchWord) :
    (∃ w ∈ [Instr.waitA, .waitB, .waitC, .waitD], w ∈ decodeDispatch dw) ↔ enabledHandlers dw = [] := by
  constructor
  · rintro ⟨w, hw, hm⟩
    exact (mem_enabledWaits_iff.mp ((wait_mem_decodeDispatch hw).mp hm)).1
  · intro hn
    have hm : waitRowOf dw ∈ enabledWaits dw := mem_enabledWaits_iff.mpr ⟨hn, rfl⟩
    exact ⟨_, mem_enabledWaits hm, (wait_mem_decodeDispatch (mem_enabledWaits hm)).mpr hm⟩

theorem no_handler_decoded_iff (dw : DispatchWord) :
    (∀ h ∈ [Instr.edge, .sampleMid, .sampleLast, .reply], h ∉ decodeDispatch dw) ↔ enabledHandlers dw = [] := by
  rw [List.eq_nil_iff_forall_not_mem]
  constructor
  · intro hn h hm
    exact hn h.toInstr (by cases h <;> decide) (toInstr_mem_decodeDispatch.mpr hm)
  · intro hn i hi
    have ⟨h, hh⟩ : ∃ h : Handler, h.toInstr = i := by
      simp only [List.mem_cons, List.not_mem_nil, or_false] at hi
      obtain rfl | rfl | rfl | rfl := hi
      exacts [⟨.edge, rfl⟩, ⟨.sampleMid, rfl⟩, ⟨.sampleLast, rfl⟩, ⟨.reply, rfl⟩]
    exact hh ▸ mt toInstr_mem_decodeDispatch.mp (hn h)

theorem wait_unique {v w : Instr} {dw : DispatchWord} (hv : v ∈ [Instr.waitA, .waitB, .waitC, .waitD])
    (hw : w ∈ [Instr.waitA, .waitB, .waitC, .waitD]) (hvm : v ∈ decodeDispatch dw) (hwm : w ∈ decodeDispatch dw) : v = w := by
  obtain ⟨-, rfl⟩ := mem_enabledWaits_iff.mp ((wait_mem_decodeDispatch hv).mp hvm)
  obtain ⟨-, rfl⟩ := mem_enabledWaits_iff.mp ((wait_mem_decodeDispatch hw).mp hwm)
  rfl

theorem waitA_mem_decodeDispatch {dw : DispatchWord} : Instr.waitA ∈ decodeDispatch dw ↔ dw &&& 0x1A = 0x00 := by
  simp [wait_mem_decodeDispatch, enabledWaits]

theorem waitB_mem_decodeDispatch {dw : DispatchWord} : Instr.waitB ∈ decodeDispatch dw ↔ dw &&& 0x1B = 0x03 := by
  simp [wait_mem_decodeDispatch, enabledWaits]

theorem waitC_mem_decodeDispatch {dw : DispatchWord} : Instr.waitC ∈ decodeDispatch dw ↔ dw &&& 0x16 = 0x10 := by
  simp [wait_mem_decodeDispatch, enabledWaits]

theorem waitD_mem_decodeDispatch {dw : DispatchWord} : Instr.waitD ∈ decodeDispatch dw ↔ dw &&& 0x17 = 0x13 := by
  simp [wait_mem_decodeDispatch, enabledWaits]

/-- Settles O2: the handler rows and the WAIT rows are read off one by one, and a WAIT row matches, then only the one `waitRowOf`
names, exactly when no handler is enabled. -/
theorem dispatchMapFollowsMaskAndMatch : Obligations.DispatchMapFollowsMaskAndMatch := by
  intro dw
  refine ⟨?edge, ?sampleMid, ?sampleLast, ?reply, waitA_mem_decodeDispatch, waitB_mem_decodeDispatch, waitC_mem_decodeDispatch,
    waitD_mem_decodeDispatch, (exists_wait_iff_no_handler dw).trans (no_handler_decoded_iff dw).symm,
    fun v hv w hw => wait_unique hv hw⟩
  case edge => exact (toInstr_mem_decodeDispatch (h := .edge)).trans edge_mem_enabledHandlers
  case sampleMid => exact (toInstr_mem_decodeDispatch (h := .sampleMid)).trans sampleMid_mem_enabledHandlers
  case sampleLast => exact (toInstr_mem_decodeDispatch (h := .sampleLast)).trans sampleLast_mem_enabledHandlers
  case reply => exact (toInstr_mem_decodeDispatch (h := .reply)).trans reply_mem_enabledHandlers

end Sys2Proof
end

section
/-!
The guards of the dispatch loop (40_dispatch.md R65), with the deadline's comparison and the bit count written as numbers.
-/

namespace Sys2Proof

open Machine

/-! ### The sampler's two guards, in numbers -/

theorem sampleMid_enabled_iff_timeSub_lt {s : State} : Handler.sampleMid ∈ enabledHandlers (dispatchWord s) ↔
    s.framing = .receiving ∧ timeSub s.params.timeW s.now s.nextSampleDeadline < 2 ^ (s.params.timeW - 1) ∧
      s.bitsReceived.val ≠ 7 := by
  rw [sampleMid_enabled, reached_iff, Ne, Fin.ext_iff]; rfl

theorem sampleLast_enabled_iff_timeSub_lt {s : State} : Handler.sampleLast ∈ enabledHandlers (dispatchWord s) ↔
    s.framing = .receiving ∧ timeSub s.params.timeW s.now s.nextSampleDeadline < 2 ^ (s.params.timeW - 1) ∧
      s.bitsReceived.val = 7 := by
  rw [sampleLast_enabled, reached_iff, Fin.ext_iff]; rfl

/-! ### While idle -/

/-- The dispatch word of an idle state: `due` is 0 whatever the deadline is (R51, R65). -/
theorem dispatchWord_of_idle {s : State} (h : s.framing = .idle) :
    dispatchWord s = packDispatch (lastBit s) false (fallEdge s) false s.reqPending s.empty := by
  simp [dispatchWord, due, isReceiving_false.mpr h]

/-- While idle no deadline changes the dispatch word (R65). -/
theorem dispatchWord_with_deadline_of_idle {s : State} (h : s.framing = .idle) (d : Nat) :
    dispatchWord { s with nextSampleDeadline := d } = dispatchWord s := by
  have hd : ({ s with nextSampleDeadline := d } : State).framing = .idle := h
  rw [dispatchWord_of_idle hd, dispatchWord_of_idle h]; rfl

/-- Settles O7: each handler's guard is its own lemma, and the idle dispatch word has no `due` bit for a deadline to set. -/
theorem guardsEnableHandlers : Obligations.GuardsEnableHandlers := fun _ =>
  ⟨edge_enabled, sampleMid_enabled_iff_timeSub_lt, sampleLast_enabled_iff_timeSub_lt, reply_enabled,
    dispatchWord_with_deadline_of_idle⟩

end Sys2Proof
end

section
/-!
EDGE (41_edge_detector.md R73): its whole next state, in every state.
-/

namespace Sys2Proof

open Machine

/-- The arm EDGE has in `exec` is the edge detector's handler. -/
theorem exec_edge_eq_execEdge (s : State) : exec .edge s = execEdge s := rfl

/-- The first sample's deadline, one and a half bit periods after the edge, as a number (R4, R5). -/
theorem timeAdd_firstSampleDelay (p : Params) (now : Nat) :
    timeAdd p.timeW now (firstSampleDelay p) = (now + 3 * p.bitPeriod / 2) % 2 ^ p.timeW := rfl

/-- EDGE always goes on. Of the registers it writes the deadline, `framing` and the count; of the ghosts, the trace and the time
of the edge. -/
theorem execEdge_eq_next (s : State) : execEdge s = .next { s with
    nextSampleDeadline := timeAdd s.params.timeW s.now (firstSampleDelay s.params)
    framing := .receiving
    bitsReceived := 0
    ghost := { s.ghost with events := s.ghost.events ++ [(s.ghost.ticks, .edge)], t0 := s.now } } := rfl

/-- Settles O8: the row and the guard are the dispatch map's own lemmas, and the handler's next state differs from `s` in the three
registers named and the ghosts only. -/
theorem edgeArmsTheSampler : Obligations.EdgeArmsTheSampler := by
  refine ⟨fun _ => edge_mem_enabledHandlers, fun _ => edge_enabled, fun s => ?result⟩
  case result =>
    rw [exec_edge_eq_execEdge, execEdge_eq_next, timeAdd_firstSampleDelay]
    exact ⟨_, rfl⟩

end Sys2Proof
end

section
/-!
The bit sampler (42_bit_sampler.md R78, R79, R80): the whole next state of each SAMPLE, and the byte a run of samples assembles.
-/

namespace Sys2Proof

open Machine

/-! ### One sample -/

/-- The arms the two samples have in `exec` are the bit sampler's handlers. -/
theorem exec_sampleMid_eq_execSampleMid (s : State) : exec .sampleMid s = execSampleMid s := rfl

theorem exec_sampleLast_eq_execSampleLast (s : State) : exec .sampleLast s = execSampleLast s := rfl

/-- The sampled level enters the accumulator as a one-bit word at bit 7 (R48). -/
theorem shiftIn_eq_ofBool (acc : Byte) (level : Bool) :
    shiftIn acc level = (acc >>> 1) ||| ((BitVec.ofBool level).setWidth 8 <<< 7) := by
  cases level <;> rfl

/-- Settles O9: the row and the guard are the dispatch map's own lemmas, and the handler's next state differs from `s` in the three
registers named and the ghosts only. -/
theorem sampleMidShiftsOneBit : Obligations.SampleMidShiftsOneBit := by
  refine ⟨fun _ => sampleMid_mem_enabledHandlers, fun _ => sampleMid_enabled_iff_timeSub_lt, fun s h8 => ?result⟩
  case result =>
    rw [exec_sampleMid_eq_execSampleMid, execSampleMid_eq_next.mpr ⟨h8, rfl⟩, ← shiftIn_eq_ofBool]
    exact ⟨_, _, rfl, rfl⟩

/-- Settles O10: as SAMPLE_MID, with the byte put in by PUSH: one element of storage is written and every other read is kept. -/
theorem sampleLastPushesTheByte : Obligations.SampleLastPushesTheByte := by
  refine ⟨fun _ => sampleLast_mem_enabledHandlers, fun _ => sampleLast_enabled_iff_timeSub_lt, fun s h8 => ?result⟩
  case result =>
    rw [exec_sampleLast_eq_execSampleLast, execSampleLast_eq_next.mpr ⟨h8, rfl⟩, ← shiftIn_eq_ofBool]
    exact ⟨_, _, s.buf.write s.writeIndex.val _, _, _, rfl, rfl, ringNext_val s.writeIndex, Memory.read?_write_same _ _ _,
      fun a ha => Memory.read?_write_other _ _ a _ ha, rfl⟩

/-! ### The byte a list of levels shifts in, as a number (R80) -/

/-- One sample halves the accumulator and adds the level's 128. -/
theorem shiftIn_toNat (acc : Byte) (level : Bool) : (shiftIn acc level).toNat = (acc.toNat + 2 ^ 8 * level.toNat) / 2 := by
  have hz : (zext8 level <<< 7 : Byte).toNat = 2 ^ 7 * level.toNat := by cases level <;> rfl
  have hs : (acc >>> 1).toNat = acc.toNat / 2 := by simp [Nat.shiftRight_eq_div_pow]
  have hlt : acc.toNat / 2 < 2 ^ 7 := by have := acc.isLt; omega
  rw [shiftIn, BitVec.toNat_or, hz, hs, Nat.or_comm, ← Nat.two_pow_add_eq_or_of_lt hlt]
  omega

/-- Samples stand above the accumulator as binary digits, the first the lowest, and each one moves the whole a place down. -/
theorem foldl_shiftIn_toNat (levels : List Bool) (acc : Byte) : (levels.foldl shiftIn acc).toNat =
    (acc.toNat + 2 ^ 8 * Nat.ofDigits 2 (levels.map Bool.toNat)) / 2 ^ levels.length := by
  induction levels generalizing acc with
  | nil => simp
  | cons level levels ih =>
    rw [List.foldl_cons, ih, shiftIn_toNat, List.map_cons, Nat.ofDigits_cons, List.length_cons, Nat.pow_succ' (n := levels.length),
      ← Nat.div_div_eq_div_mul]
    congr 1
    omega

/-- Eight samples leave nothing of the accumulator. -/
theorem foldl_shiftIn_toNat_of_length_eq_eight {levels : List Bool} (h : levels.length = 8) (acc : Byte) :
    (levels.foldl shiftIn acc).toNat = Nat.ofDigits 2 (levels.map Bool.toNat) := by
  have hacc := acc.isLt
  rw [foldl_shiftIn_toNat, h]
  omega

/-- The levels as binary digits, summed by their places. -/
theorem sum_levels_eq_ofDigits (levels : List Bool) :
    ((List.range levels.length).map fun k => (levels.getD k false).toNat * 2 ^ k).sum = Nat.ofDigits 2 (levels.map Bool.toNat) := by
  induction levels with
  | nil => rfl
  | cons level levels ih =>
    rw [List.map_cons, Nat.ofDigits_cons, ← ih, ← List.sum_map_mul_left, List.length_cons, List.range_succ_eq_map, List.map_cons,
      List.sum_cons, List.map_map]
    simp [Function.comp_def, Nat.pow_succ', Nat.mul_left_comm]

/-! ### A run of samples -/

theorem runAtLevels_append (xs ys : List (Instr × Bool)) (s : State) :
    runAtLevels (xs ++ ys) s = andThen (runAtLevels xs s) (runAtLevels ys) := by
  induction xs generalizing s with
  | nil => rfl
  | cons x xs ih =>
    simp only [List.cons_append, runAtLevels]
    cases exec x.1 { s with rxd := x.2 } <;> simp [ih]

/-- One SAMPLE_MID, in the registers a run of samples turns on. -/
theorem exec_sampleMid_goes_on {s : State} (h8 : s.bitsReceived.val < 8) : ∃ t, exec .sampleMid s = .next t ∧
    t.partialByte = shiftIn s.partialByte s.rxd ∧ t.bitsReceived.val = s.bitsReceived.val + 1 ∧
    t.writeIndex = s.writeIndex ∧ t.ghost.pushed = s.ghost.pushed :=
  ⟨_, execSampleMid_eq_next.mpr ⟨h8, rfl⟩, rfl, rfl, rfl, rfl⟩

/-- One SAMPLE_LAST: the byte with the new bit in is the byte stored and pushed. -/
theorem exec_sampleLast_goes_on {s : State} (h8 : s.bitsReceived.val < 8) : ∃ t, exec .sampleLast s = .next t ∧
    t.partialByte = shiftIn s.partialByte s.rxd ∧ t.buf.read? s.writeIndex.val = some t.partialByte ∧
    t.ghost.pushed = s.ghost.pushed ++ [t.partialByte] ∧ t.framing = .idle ∧ t.bitsReceived.val = s.bitsReceived.val + 1 :=
  ⟨_, execSampleLast_eq_next.mpr ⟨h8, rfl⟩, rfl, Memory.read?_write_same _ _ _, rfl, rfl, rfl⟩

/-- While the count stays within eight, a run of SAMPLE_MIDs goes on: it shifts its levels in and leaves the queue's write index and
the bytes pushed. -/
theorem runAtLevels_sampleMids (levels : List Bool) (s : State) (h : s.bitsReceived.val + levels.length ≤ 8) :
    ∃ t, runAtLevels ((List.replicate levels.length Instr.sampleMid).zip levels) s = .next t ∧
      t.partialByte = levels.foldl shiftIn s.partialByte ∧ t.bitsReceived.val = s.bitsReceived.val + levels.length ∧
      t.writeIndex = s.writeIndex ∧ t.ghost.pushed = s.ghost.pushed := by
  induction levels generalizing s with
  | nil => exact ⟨s, rfl, rfl, rfl, rfl, rfl⟩
  | cons level levels ih =>
    rw [List.length_cons] at h ⊢
    obtain ⟨u, hexec, hbyte, hcount, hindex, hpushed⟩ := exec_sampleMid_goes_on (s := { s with rxd := level }) (by simp only; omega)
    simp only at hbyte hcount hindex hpushed
    obtain ⟨t, hrun, hbyte', hcount', hindex', hpushed'⟩ := ih u (by omega)
    refine ⟨t, ?run, ?byte, by omega, hindex'.trans hindex, hpushed'.trans hpushed⟩
    case run => rw [List.replicate_succ, List.zip_cons_cons, runAtLevels, hexec, andThen_next, hrun]
    case byte => rw [hbyte', hbyte, List.foldl_cons]

/-- Settles O42: the SAMPLE_MIDs shift seven levels in, the SAMPLE_LAST the eighth and pushes; eight shifts leave the levels as the
byte's binary digits. -/
theorem eightSamplesAssembleTheByte : Obligations.EightSamplesAssembleTheByte := by
  intro s levels hzero hlen
  obtain rfl | ⟨first, last, rfl⟩ := List.eq_nil_or_concat' levels
  · simp at hlen
  have hfirst : first.length = 7 := by simpa using hlen
  obtain ⟨u, hrun, hbyte, hcount, hindex, hpushed⟩ := runAtLevels_sampleMids first s (by omega)
  obtain ⟨t, hexec, hbyte', hstored, hpushed', hidle, hcount'⟩ :=
    exec_sampleLast_goes_on (s := { u with rxd := last }) (by simp only; omega)
  simp only at hbyte' hstored hpushed' hcount'
  refine ⟨t, ?run, ?byte, by rw [← hindex, hstored], by rw [hpushed', hpushed], hidle, by omega⟩
  case run =>
    rw [← hfirst, List.zip_append (by simp), runAtLevels_append, hrun, andThen_next, List.zip_cons_cons, runAtLevels, hexec]
    rfl
  case byte =>
    have hfold : t.partialByte = (first ++ [last]).foldl shiftIn s.partialByte := by
      rw [hbyte', hbyte, List.foldl_append, List.foldl_cons, List.foldl_nil]
    rw [hfold, foldl_shiftIn_toNat_of_length_eq_eight hlen, ← sum_levels_eq_ofDigits, hlen]

end Sys2Proof
end

section
/-!
The output queue (43_output_queue.md R91): how many POPs a queue answers, and `unread` beside PUSH and POP.
-/

namespace Sys2Proof

open Machine

/-- The arms the two queue operations have in `exec` are the queue's PUSH and POP. -/
theorem exec_push_eq_next (b : Byte) (s : State) : exec (.push b) s = .next (push b s) := rfl

theorem exec_pop_eq_pop (s : State) : exec .pop s = pop s := rfl

/-- PUSH as an instruction changes `unread` as the queue's PUSH does (R91). -/
theorem unread_of_exec_push {b : Byte} {s t : State} (hq : QueueInv s) (hpush : exec (.push b) s = .next t) :
    unread t = if unread s = 10 then 1 else unread s + 1 := by
  obtain rfl : push b s = t := Host.Outcome.next.inj (exec_push_eq_next b s ▸ hpush)
  exact unread_push hq.emptyMeets

/-- R91's definition, the indices compared as numbers. -/
theorem unread_eq_of_indices (s : State) : unread s = if s.empty = true then 0 else if s.writeIndex.val = s.readIndex.val then 10
    else (s.writeIndex.val + 10 - s.readIndex.val) % 10 := by
  simp only [unread, Fin.ext_iff]

theorem unread_pos_iff {s : State} : 0 < unread s ↔ s.empty = false := by
  rw [Nat.pos_iff_ne_zero, Ne, unread_eq_zero, Bool.not_eq_true]

/-- As many POPs as bytes are unread all go on, and each lowers `unread` by one. -/
theorem popMany_goes_on {k : Nat} {s : State} (hq : QueueInv s) (hk : k ≤ unread s) :
    ∃ bs t, popMany k s = .next (bs, t) ∧ unread t + k = unread s := by
  induction k generalizing s with
  | zero => exact ⟨[], s, rfl, rfl⟩
  | succ k ih =>
    obtain ⟨u, hpop⟩ := pop_goes_on hq (unread_pos_iff.mp (by omega))
    have hu : unread u + 1 = unread s := unread_pop hq.emptyMeets hpop
    obtain ⟨bs, t, hrest, ht⟩ := ih (hq.pop hpop) (by omega)
    refine ⟨u.popData :: bs, t, ?run, by omega⟩
    case run => rw [popMany, hpop, andThen_next, hrest, andThen_next]

/-- Settles O38: `unread` POPs leave a queue with none unread, fewer leave one with some, and one PUSH or POP changes the number as
the queue's own lemmas say. -/
theorem unreadCountsTheBytes : Obligations.UnreadCountsTheBytes := by
  intro s hq
  refine ⟨unread_eq_of_indices s, ?untilEmpty, ?before, ?pop, ?push, ?pushFull, unread_eq_zero⟩
  case untilEmpty =>
    obtain ⟨bs, t, hrun, ht⟩ := popMany_goes_on hq le_rfl
    exact ⟨bs, t, hrun, unread_eq_zero.mp (by omega)⟩
  case before =>
    intro k hk
    obtain ⟨bs, t, hrun, ht⟩ := popMany_goes_on hq hk.le
    exact ⟨bs, t, hrun, unread_pos_iff.mp (by omega)⟩
  case pop => exact fun t hpop => unread_pop hq.emptyMeets (exec_pop_eq_pop s ▸ hpop)
  case push =>
    intro b t hpush hle
    rw [unread_of_exec_push hq hpush, if_neg (by omega)]
  case pushFull =>
    intro b t hpush hfull
    rw [unread_of_exec_push hq hpush, if_pos hfull]

end Sys2Proof
end

section
/-!
The decoder, port by port (30_encoding.md R51 to R59, log 1): what a word of each port selects, and which check refuses a word.
-/

namespace Sys2Proof

/-! ### The word of each port -/

theorem decode_dispatchWord (dw : DispatchWord) :
    decode ⟨dw.setWidth 8, Port.dispatch.tag, 0⟩ = .ok (decodeDispatch dw) := by
  have hlt := dw.isLt
  simp [decode, Port.ofTag_tag, Port.width, Nat.mod_eq_of_lt (show dw.toNat < 256 by omega), hlt]

theorem decode_queueWord (qc : BitVec 2) (b : Byte) : decode ⟨qc.setWidth 8, Port.queue.tag, b⟩ = decodeQueue qc b := by
  have hlt := qc.isLt
  simp [decode, Port.ofTag_tag, Port.width, Nat.mod_eq_of_lt (show qc.toNat < 256 by omega), hlt]

theorem decode_stimulusWord (sw : BitVec 2) : decode ⟨sw.setWidth 8, Port.stimulus.tag, 0⟩ = .ok (decodeStimulus sw) := by
  have hlt := sw.isLt
  simp [decode, Port.ofTag_tag, Port.width, Nat.mod_eq_of_lt (show sw.toNat < 256 by omega), hlt]

theorem decode_rstWord (rst : BitVec 1) : decode ⟨rst.setWidth 8, Port.rst.tag, 0⟩ = .ok (decodeRst rst) := by
  have hlt := rst.isLt
  simp [decode, Port.ofTag_tag, Port.width, Nat.mod_eq_of_lt (show rst.toNat < 256 by omega), hlt]

/-- Bytes that begin with an operation word decode as the word does. -/
theorem decodeBytes_toBytes_append (w : OpWord) (rest : List Byte) : decodeBytes (w.toBytes ++ rest) = decode w := rfl

/-- The encoder's word of a stimulus, its two bits the operands. -/
theorem encode_tick (req rxd : Bool) :
    encode (.tick req rxd) = ⟨(BitVec.ofBool req ++ BitVec.ofBool rxd).setWidth 8, Port.stimulus.tag, 0⟩ := rfl

theorem decode_encode_tick (req rxd : Bool) :
    decode (encode (.tick req rxd)) = .ok (.tick req rxd :: if req then [.request] else []) := by
  rw [encode_tick, decode_stimulusWord]
  cases req <;> cases rxd <;> rfl

theorem decode_encode_push (b : Byte) : decode (encode (.push b)) = .ok [.push b] := decode_queueWord 2 b

/-- Every operation is among those its own word selects. -/
theorem mem_decode_encode (i : Instr) : ∃ ops, decode (encode i) = .ok ops ∧ i ∈ ops := by
  cases i with
  | edge => exact ⟨_, decode_dispatchWord 0x08, by decide⟩
  | sampleMid => exact ⟨_, decode_dispatchWord 0x14, by decide⟩
  | sampleLast => exact ⟨_, decode_dispatchWord 0x34, by decide⟩
  | reply => exact ⟨_, decode_dispatchWord 0x02, by decide⟩
  | waitA => exact ⟨_, decode_dispatchWord 0x00, by decide⟩
  | waitB => exact ⟨_, decode_dispatchWord 0x03, by decide⟩
  | waitC => exact ⟨_, decode_dispatchWord 0x10, by decide⟩
  | waitD => exact ⟨_, decode_dispatchWord 0x13, by decide⟩
  | push b => exact ⟨_, decode_encode_push b, List.mem_singleton_self _⟩
  | pop => exact ⟨_, decode_queueWord 1 0, by decide⟩
  | tick req rxd => exact ⟨_, decode_encode_tick req rxd, List.mem_cons_self⟩
  | request => exact ⟨_, decode_stimulusWord 2, by decide⟩
  | reset => exact ⟨_, decode_rstWord 1, by decide⟩

/-! ### The checks, each with its refusal -/

theorem decode_of_unknown_port {w : OpWord} (hport : w.knownPort = false) : decode w = .error .unknownPort := by
  have hnone : Port.ofTag w.port = none := by simpa [OpWord.knownPort] using hport
  simp [decode, hnone]

/-- The port of a word whose tag names one. -/
theorem ofTag_of_knownPort {w : OpWord} (hport : w.knownPort = true) : ∃ p, Port.ofTag w.port = some p :=
  Option.isSome_iff_exists.mp hport

theorem decode_of_reserved_bits {w : OpWord} (hport : w.knownPort = true) (hfits : w.fits = false) :
    decode w = .error .reservedBits := by
  obtain ⟨p, hp⟩ := ofTag_of_knownPort hport
  have hwide : ¬ w.word.toNat < 2 ^ p.width := by simpa [OpWord.fits, hp] using hfits
  simp [decode, hp, hwide]

theorem decode_of_stray_data {w : OpWord} (hport : w.knownPort = true) (hfits : w.fits = true)
    (hdata : w.dataOnlyOnQueue = false) : decode w = .error .strayData := by
  obtain ⟨p, hp⟩ := ofTag_of_knownPort hport
  have hnarrow : w.word.toNat < 2 ^ p.width := by simpa [OpWord.fits, hp] using hfits
  have hstray : w.data ≠ 0 ∧ p ≠ .queue := by simpa [OpWord.dataOnlyOnQueue, hp] using hdata
  rw [decode, hp]
  dsimp only
  rw [if_neg (not_not.mpr hnarrow), if_pos hstray]

/-- Past the first three checks the port's own map answers, and only the queue's refuses one word. -/
theorem decode_of_three_checks {w : OpWord} (hport : w.knownPort = true) (hfits : w.fits = true)
    (hdata : w.dataOnlyOnQueue = true) :
    if w.noPushAndPop = true then ∃ ops, decode w = .ok ops else decode w = .error .queueCommandBoth := by
  obtain ⟨p, hp⟩ := ofTag_of_knownPort hport
  obtain ⟨word, port, data⟩ := w
  obtain rfl : port = p.tag := Port.ofTag_eq_some hp
  have hnarrow : word.toNat < 2 ^ p.width := by simpa [OpWord.fits, hp] using hfits
  have hdata : p ≠ .queue → data = 0 := by
    intro hp'; simpa [OpWord.dataOnlyOnQueue, hp, hp'] using hdata
  have hword : word = (word.setWidth p.width).setWidth 8 := by
    apply BitVec.eq_of_toNat_eq
    simp only [BitVec.toNat_setWidth]
    rw [Nat.mod_eq_of_lt hnarrow, Nat.mod_eq_of_lt word.isLt]
  cases p with
  | dispatch =>
    rw [hdata (by decide), hword]
    exact ⟨_, decode_dispatchWord _⟩
  | stimulus =>
    rw [hdata (by decide), hword]
    exact ⟨_, decode_stimulusWord _⟩
  | rst =>
    rw [hdata (by decide), hword]
    exact ⟨_, decode_rstWord _⟩
  | queue =>
    have hqueue : ∀ qc : BitVec 2, if OpWord.noPushAndPop ⟨qc.setWidth 8, Port.queue.tag, data⟩ = true
        then ∃ ops, decode ⟨qc.setWidth 8, Port.queue.tag, data⟩ = .ok ops
        else decode ⟨qc.setWidth 8, Port.queue.tag, data⟩ = .error .queueCommandBoth := by
      intro qc
      rw [decode_queueWord]
      obtain rfl | rfl | rfl | rfl : qc = 0 ∨ qc = 1 ∨ qc = 2 ∨ qc = 3 := by revert qc; decide
      · exact ⟨[], rfl⟩
      · exact ⟨[.pop], rfl⟩
      · exact ⟨[.push data], rfl⟩
      · rfl
    rw [hword]
    exact hqueue (word.setWidth 2)

theorem exists_decode_of_wellFormed {w : OpWord} (h : w.wellFormed = true) : ∃ ops, decode w = .ok ops := by
  simp only [OpWord.wellFormed, Bool.and_eq_true] at h
  obtain ⟨⟨⟨hport, hfits⟩, hdata⟩, hqueue⟩ := h
  simpa [hqueue] using decode_of_three_checks hport hfits hdata

theorem decode_of_push_and_pop {w : OpWord} (hport : w.knownPort = true) (hfits : w.fits = true)
    (hdata : w.dataOnlyOnQueue = true) (hqueue : w.noPushAndPop = false) : decode w = .error .queueCommandBoth := by
  simpa [hqueue] using decode_of_three_checks hport hfits hdata

/-- A word that fails a check is refused, by the name of the first it fails. -/
theorem exists_error_of_not_wellFormed {w : OpWord} (h : w.wellFormed = false) : ∃ e, decode w = .error e := by
  by_cases hport : w.knownPort = true
  case neg => exact ⟨_, decode_of_unknown_port (Bool.eq_false_iff.mpr hport)⟩
  by_cases hfits : w.fits = true
  case neg => exact ⟨_, decode_of_reserved_bits hport (Bool.eq_false_iff.mpr hfits)⟩
  by_cases hdata : w.dataOnlyOnQueue = true
  case neg => exact ⟨_, decode_of_stray_data hport hfits (Bool.eq_false_iff.mpr hdata)⟩
  exact ⟨_, decode_of_push_and_pop hport hfits hdata (by simpa [OpWord.wellFormed, hport, hfits, hdata] using h)⟩

theorem exists_decode_iff_wellFormed {w : OpWord} : (∃ ops, decode w = .ok ops) ↔ w.wellFormed = true := by
  refine ⟨?accepted, exists_decode_of_wellFormed⟩
  case accepted =>
    rintro ⟨ops, hops⟩
    by_contra hill
    obtain ⟨e, he⟩ := exists_error_of_not_wellFormed (Bool.eq_false_iff.mpr hill)
    rw [hops] at he
    cases he

/-! ### The statements -/

/-- Settles O3: the decoder answers the encoder's word with a list the operation is in, and what it accepts is well formed. -/
theorem everyOperationDecodesFromItsWord : Obligations.EveryOperationDecodesFromItsWord := by
  intro i rest
  obtain ⟨ops, hops, hmem⟩ := mem_decode_encode i
  exact ⟨exists_decode_iff_wellFormed.mp ⟨ops, hops⟩, ops, (decodeBytes_toBytes_append _ rest).trans hops, hmem⟩

/-- Settles O4: each check has its refusal, and the four checks passed leave a list of operations. -/
theorem decoderAcceptsExactlyWellFormedWords : Obligations.DecoderAcceptsExactlyWellFormedWords := fun _ =>
  ⟨exists_decode_iff_wellFormed, decode_of_unknown_port, decode_of_reserved_bits, decode_of_stray_data, decode_of_push_and_pop⟩

/-- Settles O1: each word is decoded. -/
theorem tableWordsDecode : Obligations.TableWordsDecode :=
  ⟨rfl, rfl, rfl, rfl, rfl, rfl, rfl, rfl, rfl, rfl, rfl⟩

/-- Settles O5: the stimulus port decodes every word to a TICK, and `req` is the bit of weight 2. -/
theorem everyStimulusWordIsATick : Obligations.EveryStimulusWordIsATick := by
  intro sw
  have hreq : sw &&& 2 = 2 ↔ sw.getLsbD 1 = true := by revert sw; decide
  rw [show (2 : Byte) = Port.stimulus.tag from rfl, decode_stimulusWord, decodeStimulus]
  simp only [hreq]

/-- Settles O6: the queue's port decodes its four words as R56 lists them. -/
theorem queueCommandWords : Obligations.QueueCommandWords := fun b =>
  ⟨decode_queueWord 0b10 b, decode_queueWord 0b01 b, decode_queueWord 0b00 b, decode_queueWord 0b11 b⟩

end Sys2Proof
end

section
/-!
The handlers and micro-operations one by one (42_bit_sampler.md, 43_output_queue.md, 44_request_reply.md, 70_reset_and_hazards.md):
results, refusals, ghosts, and the part of the state none of them touches.
-/

namespace Sys2Proof

open Machine

/-! ### The arms of `exec` -/

/-- A handler run as an operation of its own is the handler the loop runs. -/
theorem exec_toInstr (h : Handler) (s : State) : exec h.toInstr s = runHandler h s := by cases h <;> rfl

theorem exec_reply_eq_execReply (s : State) : exec .reply s = execReply s := rfl

theorem exec_tick_eq_tickWith (q l : Bool) (s : State) : exec (.tick q l) s = tickWith Config.oracle q l s := rfl

theorem exec_reset_eq_resetWith (s : State) : exec .reset s = resetWith Config.oracle s := rfl

/-- The four WAIT rows are one operation, which changes nothing (R70). -/
theorem exec_wait {i : Instr} (h : i ∈ [Instr.waitA, .waitB, .waitC, .waitD]) (s : State) : exec i s = .next s := by
  simp only [List.mem_cons, List.not_mem_nil, or_false] at h
  obtain rfl | rfl | rfl | rfl := h <;> rfl

/-- Settles O19: each arm of WAIT suspends. -/
theorem waitChangesNothing : Obligations.WaitChangesNothing := fun s =>
  ⟨exec_wait (by decide) s, exec_wait (by decide) s, exec_wait (by decide) s, exec_wait (by decide) s⟩

/-- Everything EDGE can do. -/
theorem execEdge_cases {s t : State} (hrun : execEdge s = .next t) : { s with
    nextSampleDeadline := timeAdd s.params.timeW s.now (firstSampleDelay s.params)
    framing := .receiving
    bitsReceived := 0
    ghost := { s.ghost with events := s.ghost.events ++ [(s.ghost.ticks, .edge)], t0 := s.now } } = t :=
  Host.Outcome.next.inj hrun

/-! ### The samples beyond eight bits (R58) -/

theorem sampleBit_of_eight {s : State} (h : s.bitsReceived.val = 8) : sampleBit s = .refused .bitCountOutOfRange := by
  simp [sampleBit, h]

/-- Settles O11: both samples begin with the step that refuses. -/
theorem sampleBeyondEightBitsIsRefused : Obligations.SampleBeyondEightBitsIsRefused := by
  intro s h
  rw [exec_sampleMid_eq_execSampleMid, exec_sampleLast_eq_execSampleLast, execSampleMid, execSampleLast, sampleBit_of_eight h]
  exact ⟨rfl, rfl⟩

/-! ### PUSH -/

/-- Settles O12: the element written reads back, the others are kept, and the rest of the record is named. -/
theorem pushWritesOneElement : Obligations.PushWritesOneElement := fun s b =>
  ⟨s.buf.write s.writeIndex.val b, ringNext s.writeIndex, _, ringNext_val _, Memory.read?_write_same _ _ _,
    fun a ha => Memory.read?_write_other _ _ a _ ha, exec_push_eq_next b s⟩

/-- The overruns PUSH counts, by R91's number of unread bytes. -/
theorem overruns_push (b : Byte) (s : State) :
    (push b s).ghost.overruns = s.ghost.overruns + if unread s = 10 then 1 else 0 := by
  rw [push_ghost]
  simp only [queueFull_iff]
  split <;> rfl

theorem push_ghost_eq (b : Byte) (s : State) : (push b s).ghost = { s.ghost with
    pushed := s.ghost.pushed ++ [b], overruns := s.ghost.overruns + if unread s = 10 then 1 else 0 } := by
  rw [← overruns_push b s, push_ghost]

/-! ### POP and REPLY -/

/-- POP of a queue with a byte at `readIndex`: `empty` is set exactly when the indices meet (R88). -/
theorem pop_of_byte {s : State} {b : Byte} (he : s.empty = false) (hb : s.buf.read? s.readIndex.val = some b) :
    pop s = .next { s with
      popData := b
      readIndex := ringNext s.readIndex
      empty := decide (ringNext s.readIndex = s.writeIndex)
      ghost := { s.ghost with popped := s.ghost.popped ++ [b] } } := by
  refine pop_eq_next.mpr ⟨he, b, hb, ?_⟩
  rw [he]
  congr 1

theorem pop_of_unwritten {s : State} (he : s.empty = false) (hb : s.buf.read? s.readIndex.val = none) :
    pop s = .fault (.unwrittenElement s.readIndex.val) := by
  simp [pop, he, hb]

/-- The state after a REPLY that drives `b` (R100). -/
def afterReply (b : Byte) (s : State) : State :=
  { s with
    popData := b
    readIndex := ringNext s.readIndex
    empty := decide (ringNext s.readIndex = s.writeIndex)
    rspValid := true
    rspData := b
    reqPending := false
    ghost := { s.ghost with
      popped := s.ghost.popped ++ [b]
      delivered := s.ghost.delivered ++ [(s.now, b)]
      events := s.ghost.events ++ [(s.ghost.ticks, .reply b)] } }

/-- REPLY of a queue with a byte at `readIndex`. -/
theorem execReply_of_byte {s : State} {b : Byte} (he : s.empty = false) (hb : s.buf.read? s.readIndex.val = some b) :
    execReply s = .next (afterReply b s) :=
  execReply_eq_next.mpr ⟨_, pop_of_byte he hb, rfl⟩

/-- Everything REPLY can do when it goes on. -/
theorem execReply_cases {s t : State} (h : execReply s = .next t) : ∃ b, s.empty = false ∧ s.buf.read? s.readIndex.val = some b ∧
    t = afterReply b s := by
  obtain ⟨u, hpop, -⟩ := execReply_eq_next.mp h
  obtain ⟨he, b, hb, -⟩ := pop_eq_next.mp hpop
  exact ⟨b, he, hb, Host.Outcome.next.inj (h.symm.trans (execReply_of_byte he hb))⟩

/-- Settles O13: POP's own lemma, with the two indices compared. -/
theorem popTakesTheOldestByte : Obligations.PopTakesTheOldestByte := fun s _ he hb =>
  ⟨ringNext s.readIndex, _, ringNext_val _, pop_of_byte he hb⟩

/-- Settles O14: REPLY begins with the POP that is refused. -/
theorem popOnEmptyQueueIsRefused : Obligations.PopOnEmptyQueueIsRefused := by
  intro s he
  rw [exec_pop_eq_pop, exec_reply_eq_execReply, execReply, pop_empty he]
  exact ⟨rfl, rfl⟩

/-- Settles O15: REPLY begins with the POP that faults. -/
theorem popOfUnwrittenElementFaults : Obligations.PopOfUnwrittenElementFaults := by
  intro s he hb
  rw [exec_pop_eq_pop, exec_reply_eq_execReply, execReply, pop_of_unwritten he hb]
  exact ⟨rfl, rfl⟩

/-- Settles O16: the row and the guard are the dispatch map's own lemmas, the result REPLY's. -/
theorem replyDrivesTheOldestByte : Obligations.ReplyDrivesTheOldestByte :=
  ⟨fun _ => reply_mem_enabledHandlers, fun _ => reply_enabled, fun s _ he hb =>
    ⟨ringNext s.readIndex, _, ringNext_val _, execReply_of_byte he hb⟩⟩

/-! ### REQUEST -/

theorem requestByte_of_free {s : State} (h : s.reqPending = false) : requestByte s = .next { s with reqPending := true } := by
  simp [requestByte, h]

theorem requestByte_of_pending {s : State} (h : s.reqPending = true) : requestByte s = .refused .requestWhilePending := by
  simp [requestByte, h]

/-- A tick's request meets none pending, or one (R99). -/
theorem free_or_pending (q : Bool) (s : State) : (q = true → s.reqPending = false) ∨ q = true ∧ s.reqPending = true := by
  cases q <;> cases s.reqPending <;> simp

theorem tickWith_of_illegal {s : State} (o : Oracle) (q l : Bool) (h : ¬ paramsLegal s.params) :
    tickWith o q l s = .refused .illegalParameters := if_neg h

/-- A tick with a request beside a pending one is refused as a whole (R99). -/
theorem tickWith_of_pending {s : State} (o : Oracle) (l : Bool) (h : s.reqPending = true) (hl : paramsLegal s.params) :
    tickWith o true l s = .refused .requestWhilePending := by
  have hopen : openTick o true l s = .refused .requestWhilePending := requestByte_of_pending (s := presentTick o l s) h
  rw [tickWith, if_pos hl, hopen, andThen_refused]

/-- Settles O17. -/
theorem requestBecomesPending : Obligations.RequestBecomesPending := fun _ => requestByte_of_free

/-- Settles O18: REQUEST refuses, and with it the tick that contains it. -/
theorem secondRequestHasNoMove : Obligations.SecondRequestHasNoMove := fun _ l h =>
  ⟨requestByte_of_pending h, tickWith_of_pending Config.oracle l h⟩

/-! ### RESET -/

/-- Settles O21: the free values are the draws, the times among them reduced to TIME_W bits. -/
theorem resetFromAnyState : Obligations.ResetFromAnyState := fun _ =>
  ⟨_, _, _, _, _, _, _, Nat.mod_lt _ (Nat.two_pow_pos _), Nat.mod_lt _ (Nat.two_pow_pos _), rfl⟩

/-! ### The ghosts -/

/-- Settles O20: the next state of each operation names its ghosts; PUSH's overruns are those of R91's `unread`. -/
theorem ghostQuantitiesRecordWhatRan : Obligations.GhostQuantitiesRecordWhatRan := by
  intro s t b
  refine ⟨fun h => ?edge, fun h => ?sampleMid, fun h => ?sampleLast, fun h => ?push, fun h => ?pop, fun h => ?reply, fun h => ?reset⟩
  case edge =>
    obtain rfl := execEdge_cases h
    rfl
  case sampleMid =>
    obtain ⟨-, rfl⟩ := execSampleMid_eq_next.mp h
    rfl
  case sampleLast =>
    obtain ⟨-, rfl⟩ := execSampleLast_eq_next.mp h
    rw [logEvent_ghost, push_ghost_eq]
    rfl
  case push =>
    obtain rfl := Host.Outcome.next.inj ((exec_push_eq_next b s).symm.trans h)
    exact push_ghost_eq b s
  case pop =>
    obtain ⟨-, b, -, rfl⟩ := pop_eq_next.mp (exec_pop_eq_pop s ▸ h)
    rfl
  case reply =>
    obtain ⟨b, -, -, rfl⟩ := execReply_cases h
    rfl
  case reset =>
    obtain rfl := Host.Outcome.next.inj h
    rfl

/-! ### State codes (R57, R58) -/

theorem bitsOfCode_ofNat (n : Fin 9) : bitsOfCode (BitVec.ofNat 4 n.val) = some n := by revert n; decide

theorem indexOfCode_ofNat (i : Fin 10) : indexOfCode (BitVec.ofNat 4 i.val) = some i := by revert i; decide

theorem bitsOfCode_reserved {c : BitVec 4} (h : 8 < c.toNat) : bitsOfCode c = none := dif_neg (by omega)

theorem indexOfCode_reserved {c : BitVec 4} (h : 9 < c.toNat) : indexOfCode c = none := dif_neg (by omega)

theorem framingOfCode_framingCode (f : Framing) : framingOfCode (framingCode f) = f := by cases f <;> rfl

theorem ofBool_eq_one {b : Bool} : BitVec.ofBool b = 1 ↔ b = true := by cases b <;> decide

theorem ofBool_beq_one (b : Bool) : (BitVec.ofBool b == 1) = b := by cases b <;> decide

theorem loadCodes_codesOf (s : State) : loadCodes (codesOf s) s = .next s := by
  simp only [loadCodes, codesOf, bitsOfCode_ofNat, indexOfCode_ofNat, framingOfCode_framingCode, ofBool_beq_one]

theorem loadCodes_reserved {c : StateCodes} (h : bitsOfCode c.bitsReceived = none ∨ indexOfCode c.writeIndex = none ∨
    indexOfCode c.readIndex = none) (s : State) : loadCodes c s = .refused .reservedStateCode := by
  unfold loadCodes
  split
  next hn hw hr => simp [hn, hw, hr] at h
  next => rfl

/-- Settles O57: each item's code gives the item back, and one item without a value refuses the whole. -/
theorem stateCodesRoundTripAndReservedCodesAreRefused : Obligations.StateCodesRoundTripAndReservedCodesAreRefused := by
  refine ⟨fun s => ⟨loadCodes_codesOf s, ?framing, ?bits, ?write, ?read, ofBool_eq_one, ofBool_eq_one, ofBool_eq_one⟩,
    fun c s h => ?reserved⟩
  case framing => simp only [codesOf]; cases s.framing <;> decide
  case bits => exact Nat.mod_eq_of_lt (by omega)
  case write => exact Nat.mod_eq_of_lt (by omega)
  case read => exact Nat.mod_eq_of_lt (by omega)
  case reserved => exact loadCodes_reserved (h.imp bitsOfCode_reserved (.imp indexOfCode_reserved indexOfCode_reserved)) s

end Sys2Proof
end

section
/-!
One step of the machine (log 2, log 3): which operation an input word runs, on which state, and what every step leaves alone.
-/

namespace Sys2Proof

open Machine

/-! ### The next word -/

theorem dropInput_eq {s : State} {w : OpWord} {rest : List OpWord} (hin : s.inputs = w :: rest) :
    dropInput s = { s with inputs := rest } := by
  rw [dropInput, hin, List.tail_cons]

theorem step_of_no_word {s : State} (hin : s.inputs = []) : step s = .refused .stimulusEnded := by simp [step, hin]

theorem step_of_error {s : State} {w : OpWord} {rest : List OpWord} {e : DecodeError} (hin : s.inputs = w :: rest)
    (hdec : decode w = .error e) : step s = .refused (.undecodable e) := by
  simp [step, hin, hdec]

/-- A word of another port than the dispatch word's runs the first operation it selects. -/
theorem step_of_head {s : State} {w : OpWord} {rest : List OpWord} {i : Instr} {ops : List Instr} (hin : s.inputs = w :: rest)
    (hport : w.port ≠ Port.dispatch.tag) (hdec : decode w = .ok (i :: ops)) : step s = exec i (dropInput s) := by
  simp [step, hin, hdec, hport, selectOp]

theorem step_of_nothing_selected {s : State} {w : OpWord} {rest : List OpWord} (hin : s.inputs = w :: rest)
    (hport : w.port ≠ Port.dispatch.tag) (hdec : decode w = .ok []) : step s = .next (dropInput s) := by
  simp [step, hin, hdec, hport, selectOp]

theorem step_of_mismatch {s : State} {w : OpWord} {rest : List OpWord} {ops : List Instr} (hin : s.inputs = w :: rest)
    (hport : w.port = Port.dispatch.tag) (hdec : decode w = .ok ops) (hne : ops ≠ decodeDispatch (dispatchWord s)) :
    step s = .refused .dispatchWordMismatch := by
  simp [step, hin, hdec, hport, hne]

/-- The operation an iteration runs by itself always exists: a WAIT row matches where no handler is enabled. -/
theorem exists_iterationOp (o : Oracle) (dw : DispatchWord) (s : State) : ∃ i t, iterationOp o dw s = some (i, t) := by
  unfold iterationOp
  cases hc : choose o (enabledHandlers dw) s with
  | some p => exact ⟨_, _, rfl⟩
  | none =>
    rw [enabledWaits_eq, if_pos (choose_eq_none.mp hc)]
    exact ⟨_, _, rfl⟩

/-- What an iteration runs is among the operations the dispatch word selects, on the state with the draws at most moved on. -/
theorem iterationOp_mem {o : Oracle} {dw : DispatchWord} {s t : State} {i : Instr} (h : iterationOp o dw s = some (i, t)) :
    i ∈ decodeDispatch dw ∧ ∃ k, t = drawn k s := by
  obtain ⟨hd, rfl, hmem, hdrawn⟩ | ⟨-, hmem, rfl⟩ := iterationOp_eq_some h
  · exact ⟨toInstr_mem_decodeDispatch.mpr hmem, hdrawn⟩
  · exact ⟨(wait_mem_decodeDispatch (mem_enabledWaits hmem)).mpr hmem, 0, rfl⟩

/-- A dispatch word that selects what the block's own does runs what the iteration picks. -/
theorem step_of_match {s t : State} {w : OpWord} {rest : List OpWord} {i : Instr} (hin : s.inputs = w :: rest)
    (hport : w.port = Port.dispatch.tag) (hdec : decode w = .ok (decodeDispatch (dispatchWord s)))
    (hop : iterationOp Config.oracle (dispatchWord s) (dropInput s) = some (i, t)) : step s = exec i t := by
  have hsel : selectOp w (decodeDispatch (dispatchWord s)) (dropInput s) = some (i, t) := by
    rw [selectOp, if_pos hport, dropInput_dispatchWord, hop]
  simp [step, hin, hdec, hsel]

/-- Settles O50: each word is decoded by its port's lemma, and its port is not the dispatch word's. -/
theorem stepRunsTheDecodedOperation : Obligations.StepRunsTheDecodedOperation := by
  intro s rest
  refine ⟨fun q l hin => ?tick, fun hin => ?reset, fun b hin => ?push, fun b hin => ?pop, fun b hin => ?noCommand, fun hin => ?noReset⟩
  all_goals rw [← dropInput_eq hin]
  case tick => exact step_of_head hin (by decide : Port.stimulus.tag ≠ Port.dispatch.tag) (decode_encode_tick q l)
  case reset => exact step_of_head hin (by decide) (decode_rstWord 1)
  case push => exact step_of_head hin (by decide : Port.queue.tag ≠ Port.dispatch.tag) (decode_encode_push b)
  case pop => exact step_of_head hin (by decide : Port.queue.tag ≠ Port.dispatch.tag) (decode_queueWord 1 b)
  case noCommand => exact step_of_nothing_selected hin (by decide : Port.queue.tag ≠ Port.dispatch.tag) (decode_queueWord 0 b)
  case noReset => exact step_of_nothing_selected hin (by decide) (decode_rstWord 0)

/-- Settles O51: the iteration's operation runs where the words agree. -/
theorem stepOfADispatchWord : Obligations.StepOfADispatchWord := by
  intro s w rest ops hin hport hdec
  refine ⟨?agree, step_of_mismatch hin hport hdec⟩
  case agree =>
    rintro rfl
    obtain ⟨i, t, hop⟩ := exists_iterationOp Config.oracle (dispatchWord s) (dropInput s)
    obtain ⟨hmem, k, rfl⟩ := iterationOp_mem hop
    refine ⟨i, hmem, k, ?_⟩
    rw [step_of_match hin hport hdec hop, dropInput_eq hin]
    rfl

/-- Settles O52. -/
theorem stepWithoutAUsableWordIsRefused : Obligations.StepWithoutAUsableWordIsRefused := fun _ =>
  ⟨step_of_no_word, fun _ _ _ => step_of_error⟩

/-! ### What a handler leaves alone -/

/-- The parameters, the words to come, the line and the timer: what no handler writes (R9, R64). -/
structure SameSetting (s t : State) : Prop where
  params : t.params = s.params
  inputs : t.inputs = s.inputs
  prevLevel : t.prevLevel = s.prevLevel
  rxd : t.rxd = s.rxd
  now : t.now = s.now

theorem SameSetting.refl (s : State) : SameSetting s s := ⟨rfl, rfl, rfl, rfl, rfl⟩

theorem SameSetting.trans {s t u : State} (h : SameSetting s t) (h' : SameSetting t u) : SameSetting s u :=
  ⟨h'.params.trans h.params, h'.inputs.trans h.inputs, h'.prevLevel.trans h.prevLevel, h'.rxd.trans h.rxd, h'.now.trans h.now⟩

theorem SameSetting.drawn {s t : State} (k : Nat) (h : SameSetting s t) : SameSetting s (drawn k t) :=
  ⟨h.params, h.inputs, h.prevLevel, h.rxd, h.now⟩

theorem sameSetting_pop {s t : State} (h : pop s = .next t) : SameSetting s t := by
  obtain ⟨-, b, -, rfl⟩ := pop_eq_next.mp h
  exact ⟨rfl, rfl, rfl, rfl, rfl⟩

theorem sameSetting_runHandler {h : Handler} {s t : State} (hrun : runHandler h s = .next t) : SameSetting s t := by
  cases h with
  | edge =>
    obtain rfl := execEdge_cases hrun
    exact ⟨rfl, rfl, rfl, rfl, rfl⟩
  | sampleMid =>
    obtain ⟨-, rfl⟩ := execSampleMid_eq_next.mp hrun
    exact ⟨rfl, rfl, rfl, rfl, rfl⟩
  | sampleLast =>
    obtain ⟨-, rfl⟩ := execSampleLast_eq_next.mp hrun
    exact ⟨rfl, rfl, rfl, rfl, rfl⟩
  | reply =>
    obtain ⟨b, -, -, rfl⟩ := execReply_cases hrun
    exact ⟨rfl, rfl, rfl, rfl, rfl⟩

/-! ### A whole tick (R64) -/

/-- The state a tick's loop starts from: the tick's inputs taken in, its request among them. -/
def openedTick (o : Oracle) (q l : Bool) (s : State) : State := { presentTick o l s with reqPending := q || s.reqPending }

/-- A tick that is not refused runs its loop on the opened state and closes. -/
theorem tickWith_of_free {s : State} {o : Oracle} {q l : Bool} (hlegal : paramsLegal s.params) (hfree : q = true → s.reqPending = false) :
    tickWith o q l s = andThen (loopFrom o loopBound (openedTick o q l s)) fun u => .next (closeTick u) := by
  rw [tickWith, if_pos hlegal, openTick_eq_next.mpr ⟨hfree, rfl⟩]
  rfl

/-- A tick that goes on, with its three parts named (R64, R99). -/
theorem tickWith_parts {o : Oracle} {q l : Bool} {s t : State} (h : tickWith o q l s = .next t) :
    paramsLegal s.params ∧ (q = true → s.reqPending = false) ∧
      ∃ u, loopFrom o loopBound (openedTick o q l s) = .next u ∧ t = closeTick u := by
  obtain ⟨hlegal, v, u, hopen, hloop, rfl⟩ := tickWith_eq_next.mp h
  obtain ⟨hfree, rfl⟩ := openTick_eq_next.mp hopen
  exact ⟨hlegal, hfree, u, hloop, rfl⟩

/-- The tick rule: what holds once the tick is open, and the draws and every enabled handler keep, holds when its loop ends. -/
theorem tickWith_rule {o : Oracle} {q l : Bool} {s t : State} {Q : State → Prop} (hopen : Q (openedTick o q l s))
    (hdraw : ∀ k u, Q u → Q (drawn k u))
    (hserve : ∀ h u v, Q u → h ∈ enabledHandlers (dispatchWord u) → runHandler h u = .next v → Q v)
    (h : tickWith o q l s = .next t) : ∃ u, t = closeTick u ∧ Q u ∧ LoopEnded u := by
  obtain ⟨-, -, u, hloop, rfl⟩ := tickWith_parts h
  exact ⟨u, rfl, loopFrom_rule hdraw hserve hopen hloop⟩

/-- The loop of a tick leaves the tick's setting alone. -/
theorem tickWith_setting {o : Oracle} {q l : Bool} {s t : State} (h : tickWith o q l s = .next t) :
    ∃ u, t = closeTick u ∧ SameSetting (openedTick o q l s) u ∧ LoopEnded u :=
  tickWith_rule (SameSetting.refl _) (fun k _ hu => hu.drawn k) (fun _ _ _ hu _ hrun => hu.trans (sameSetting_runHandler hrun)) h

theorem tickWith_params {o : Oracle} {q l : Bool} {s t : State} (h : tickWith o q l s = .next t) : t.params = s.params := by
  obtain ⟨u, rfl, hsame, -⟩ := tickWith_setting h
  exact hsame.params

theorem tickWith_inputs {o : Oracle} {q l : Bool} {s t : State} (h : tickWith o q l s = .next t) : t.inputs = s.inputs := by
  obtain ⟨u, rfl, hsame, -⟩ := tickWith_setting h
  exact hsame.inputs

theorem tickWith_prevLevel {o : Oracle} {q l : Bool} {s t : State} (h : tickWith o q l s = .next t) : t.prevLevel = l := by
  obtain ⟨u, rfl, hsame, -⟩ := tickWith_setting h
  exact hsame.rxd

theorem tickWith_rxd {o : Oracle} {q l : Bool} {s t : State} (h : tickWith o q l s = .next t) : t.rxd = l := by
  obtain ⟨u, rfl, hsame, -⟩ := tickWith_setting h
  exact hsame.rxd

theorem tickWith_now {o : Oracle} {q l : Bool} {s t : State} (h : tickWith o q l s = .next t) :
    t.now = timeAdd s.params.timeW s.now 1 := by
  obtain ⟨u, rfl, hsame, -⟩ := tickWith_setting h
  rw [closeTick_now, hsame.params, hsame.now]
  rfl

/-! ### A whole step -/

/-- The rule for a property of the next state that a step from `s` has: it holds past the word, and each operation a step can run
gives it. -/
theorem step_rule {Q : State → Prop} {s t : State} (h : step s = .next t) (hnone : Q (dropInput s))
    (hhandler : ∀ hd k, hd ∈ enabledHandlers (dispatchWord s) → runHandler hd (drawn k (dropInput s)) = .next t → Q t)
    (hwait : ∀ k, Q (drawn k (dropInput s)))
    (hpush : ∀ b k, Q (push b (drawn k (dropInput s))))
    (hpop : ∀ k, pop (drawn k (dropInput s)) = .next t → Q t)
    (htick : ∀ q l k, tickWith Config.oracle q l (drawn k (dropInput s)) = .next t → Q t)
    (hreset : ∀ k, resetWith Config.oracle (drawn k (dropInput s)) = .next t → Q t) : Q t := by
  obtain rfl | ⟨i, k, hexec, hop⟩ := step_eq_next h
  · exact hnone
  obtain ⟨hd, rfl, hmem⟩ | hwaits | ⟨b, rfl⟩ | rfl | ⟨q, l, rfl⟩ | rfl := hop
  · exact hhandler hd k hmem (exec_toInstr hd _ ▸ hexec)
  · obtain rfl := Host.Outcome.next.inj ((exec_wait hwaits _).symm.trans hexec)
    exact hwait k
  · obtain rfl := Host.Outcome.next.inj ((exec_push_eq_next b _).symm.trans hexec)
    exact hpush b k
  · exact hpop k hexec
  · exact htick q l k hexec
  · exact hreset k hexec

/-- Settles O53: past the word the words to come are the tail, and no operation writes them or the parameters. -/
theorem stepUsesOneWordAndKeepsTheParameters : Obligations.StepUsesOneWordAndKeepsTheParameters := by
  intro s t h
  refine step_rule (Q := fun t => t.inputs = s.inputs.tail ∧ t.params = s.params) h ⟨rfl, rfl⟩ ?handler (fun _ => ⟨rfl, rfl⟩)
    (fun _ _ => ⟨rfl, rfl⟩) ?pop ?tick ?reset
  case handler => exact fun hd k _ hrun => ⟨(sameSetting_runHandler hrun).inputs, (sameSetting_runHandler hrun).params⟩
  case pop => exact fun k hpop => ⟨(sameSetting_pop hpop).inputs, (sameSetting_pop hpop).params⟩
  case tick => exact fun q l k htick => ⟨(tickWith_inputs htick :), (tickWith_params htick :)⟩
  case reset =>
    intro k hreset
    obtain rfl := Host.Outcome.next.inj hreset
    exact ⟨rfl, rfl⟩

/-! ### The invariant -/

theorem inv_openedTick {s : State} (hi : Inv s) (o : Oracle) (q l : Bool) : Inv (openedTick o q l s) := hi.openTick o _ l

theorem inv_tickWith {o : Oracle} {q l : Bool} {s t : State} (hi : Inv s) (h : tickWith o q l s = .next t) : Inv t := by
  obtain ⟨u, rfl, hu, hend⟩ := tickWith_rule (inv_openedTick hi o q l) (fun k _ hu => hu.drawn k)
    (fun _ _ _ hu hmem hrun => hu.handler hmem hrun) h
  exact hu.closeTick hend

/-- What R126 leaves of the state: idle, nothing written, nothing recorded. -/
theorem inv_of_reset_registers {s : State} (hlegal : paramsLegal s.params) (htime : TimeInv s) (hframing : s.framing = .idle)
    (hbits : s.bitsReceived = 0) (hbuf : s.buf = []) (hindices : s.writeIndex = s.readIndex) (hempty : s.empty = true)
    (hpushed : s.ghost.pushed = []) (hpopped : s.ghost.popped = []) : Inv s := by
  have hunread : unread s = 0 := unread_eq_zero.mpr hempty
  refine ⟨hlegal, ⟨hbuf ▸ Memory.nil_wf, fun _ => hindices, fun k hk => by omega⟩, htime, ⟨?_, ?_, ?_, ?_⟩, fun _ => ?fifo⟩
  case fifo => simp [hpushed, hpopped, unreadBytes, hunread]
  all_goals simp [hframing, hbits]

theorem inv_resetTo {p : Params} {n d : Nat} {b : Byte} (hlegal : paramsLegal p) (hn : n < 2 ^ p.timeW) (hd : d < 2 ^ p.timeW) :
    Inv (State.resetTo p n b d) :=
  inv_of_reset_registers hlegal ⟨hn, hd⟩ rfl rfl rfl rfl rfl rfl rfl

theorem inv_resetWith {o : Oracle} {s t : State} (hlegal : paramsLegal s.params) (h : resetWith o s = .next t) : Inv t := by
  obtain rfl := Host.Outcome.next.inj h
  exact inv_of_reset_registers hlegal ⟨Nat.mod_lt _ (Nat.two_pow_pos _), Nat.mod_lt _ (Nat.two_pow_pos _)⟩ rfl rfl rfl rfl rfl rfl rfl

/-- Settles O54: the default parameters are legal, and a reset state has the registers the invariant asks for. -/
theorem invariantHoldsAfterReset : Obligations.InvariantHoldsAfterReset :=
  ⟨inv_resetTo (by decide) (Nat.two_pow_pos _) (Nat.two_pow_pos _), fun _ _ _ _ => inv_resetTo⟩

/-- Settles O55: each operation of a step keeps the invariant. -/
theorem everyStepKeepsTheInvariant : Obligations.EveryStepKeepsTheInvariant := by
  intro s t hi h
  exact step_rule h hi.dropInput (fun hd k hmem hrun => (hi.dropInput.drawn k).handler hmem hrun) (fun k => hi.dropInput.drawn k)
    (fun b k => (hi.dropInput.drawn k).push b) (fun k hpop => (hi.dropInput.drawn k).pop hpop)
    (fun q l k htick => inv_tickWith (hi.dropInput.drawn k) htick) (fun k hreset => inv_resetWith (hi.dropInput.drawn k).legal hreset)

end Sys2Proof
end

section
/-!
The dispatch loop ends (40_dispatch.md R71): every handler it runs uses up some of the work a tick can find, so a tick completes, and
from a state of the invariant after three handlers at most. Then no step from such a state faults (60_exceptions.md R105).
-/

namespace Sys2Proof

open Machine

/-! ### The work a tick can find -/

/-- How many handlers the loop may still run: while a sample is due, `samples` of the count for the byte and one for an edge after it;
while idle, one for a falling edge; and one for a pending request. -/
def work (samples : Fin 9 → Nat) (s : State) : Nat :=
  (if due s then samples s.bitsReceived + (fallEdge s).toNat else if isReceiving s then 0 else (fallEdge s).toNat) +
    s.reqPending.toNat

theorem work_le (samples : Fin 9 → Nat) (s : State) : work samples s ≤ samples s.bitsReceived + 2 := by
  have hline := (fallEdge s).toNat_le
  have hreq := s.reqPending.toNat_le
  unfold work
  split
  · omega
  · split <;> omega

theorem due_iff {s : State} : due s = true ↔ s.framing = .receiving ∧ reached s.params.timeW s.now s.nextSampleDeadline = true := by
  rw [due, Bool.and_eq_true, isReceiving_iff]

/-- The first deadline of a byte is ahead, so no sample is due after EDGE. -/
theorem due_edge {s t : State} (hlegal : paramsLegal s.params) (hrun : execEdge s = .next t) : due t = false := by
  obtain rfl := execEdge_cases hrun
  have hahead : reached s.params.timeW s.now (timeAdd s.params.timeW s.now (firstSampleDelay s.params)) = false :=
    not_reached_ahead (by have := hlegal.2.1; omega) rfl (by have := firstSampleDelay_ge_three hlegal; omega)
      (by have := firstSampleDelay_lt_half hlegal; omega)
  simp [due, hahead]

/-- From a state of the invariant the deadline a SAMPLE_MID sets is ahead: the lag is below BIT_PERIOD. -/
theorem due_sampleMid {s t : State} (hi : Inv s) (hmem : Handler.sampleMid ∈ enabledHandlers (dispatchWord s))
    (hrun : execSampleMid s = .next t) : due t = false := by
  obtain ⟨hreceiving, hreached, -⟩ := sampleMid_enabled.mp hmem
  obtain ⟨-, rfl⟩ := execSampleMid_eq_next.mp hrun
  obtain ⟨-, hlag⟩ := hi.due_lag hreceiving hreached
  obtain ⟨-, hwidth, hrange, hjitter, -⟩ := hi.legal
  have hnow : timeAdd s.params.timeW s.nextSampleDeadline (lag s) = s.now := timeAdd_timeSub _ hi.time.nowFits
  have hahead : reached s.params.timeW s.now (timeAdd s.params.timeW s.nextSampleDeadline s.params.bitPeriod) = false := by
    refine not_reached_ahead (by omega) (x := s.params.bitPeriod - lag s) ?_ (by omega) (by omega)
    conv => rhs; rw [← hnow, timeAdd_assoc]
    congr 1; omega
  simp [due, hahead]

theorem work_of_due {samples : Fin 9 → Nat} {s : State} (h : due s = true) :
    work samples s = samples s.bitsReceived + (fallEdge s).toNat + s.reqPending.toNat := by
  rw [work, if_pos h]

theorem work_of_idle {samples : Fin 9 → Nat} {s : State} (h : s.framing = .idle) :
    work samples s = (fallEdge s).toNat + s.reqPending.toNat := by
  simp [work, due, isReceiving_false.mpr h]

theorem work_of_ahead {samples : Fin 9 → Nat} {s : State} (h : s.framing = .receiving) (hdue : due s = false) :
    work samples s = s.reqPending.toNat := by
  simp [work, hdue, isReceiving_iff.mpr h]

theorem fallEdge_of_sameSetting {s t : State} (h : SameSetting s t) : fallEdge t = fallEdge s := by
  rw [fallEdge, fallEdge, h.prevLevel, h.rxd]

/-- Every handler the loop runs uses up some of the work, if a SAMPLE_MID that leaves the next sample due does. -/
theorem work_runHandler_lt {samples : Fin 9 → Nat} (hpos : ∀ n : Fin 9, n.val < 8 → 0 < samples n) {h : Handler} {s t : State}
    (hlegal : paramsLegal s.params) (hmem : h ∈ enabledHandlers (dispatchWord s)) (hrun : runHandler h s = .next t)
    (hmid : h = .sampleMid → due t = true → samples t.bitsReceived < samples s.bitsReceived) :
    work samples t < work samples s := by
  have hedge := fallEdge_of_sameSetting (sameSetting_runHandler hrun)
  cases h with
  | edge =>
    have hdue : due t = false := due_edge hlegal hrun
    obtain ⟨hidle, hprev, hline⟩ := edge_enabled.mp hmem
    obtain ⟨hreceiving, hreq⟩ : t.framing = .receiving ∧ t.reqPending = s.reqPending := by
      obtain rfl := execEdge_cases hrun
      exact ⟨rfl, rfl⟩
    have hfall : (fallEdge s).toNat = 1 := by simp [fallEdge, hprev, hline]
    rw [work_of_idle hidle, work_of_ahead hreceiving hdue, hreq]
    omega
  | sampleMid =>
    obtain ⟨hreceiving, hreached, -⟩ := sampleMid_enabled.mp hmem
    obtain ⟨h8, hreceiving', hreq⟩ : s.bitsReceived.val < 8 ∧ t.framing = .receiving ∧ t.reqPending = s.reqPending := by
      obtain ⟨h8, rfl⟩ := execSampleMid_eq_next.mp hrun
      exact ⟨h8, hreceiving, rfl⟩
    have hleft := hpos _ h8
    rw [work_of_due (due_iff.mpr ⟨hreceiving, hreached⟩)]
    cases hdue : due t with
    | true =>
      have hless := hmid rfl hdue
      rw [work_of_due hdue, hedge, hreq]
      omega
    | false =>
      rw [work_of_ahead hreceiving' hdue, hreq]
      omega
  | sampleLast =>
    obtain ⟨hreceiving, hreached, -⟩ := sampleLast_enabled.mp hmem
    obtain ⟨h8, hidle, hreq⟩ : s.bitsReceived.val < 8 ∧ t.framing = .idle ∧ t.reqPending = s.reqPending := by
      obtain ⟨h8, rfl⟩ := execSampleLast_eq_next.mp hrun
      exact ⟨h8, rfl, rfl⟩
    have hleft := hpos _ h8
    rw [work_of_due (due_iff.mpr ⟨hreceiving, hreached⟩), work_of_idle hidle, hedge, hreq]
    omega
  | reply =>
    obtain ⟨hpending, -⟩ := reply_enabled.mp hmem
    obtain ⟨b, -, -, rfl⟩ := execReply_cases hrun
    unfold work
    rw [hpending]
    exact Nat.add_lt_add_left Nat.one_pos _

/-- The samples a byte can still take, from any state. -/
def bitsLeft (n : Fin 9) : Nat := 8 - n.val

/-- The samples one tick can take from a state of the invariant: a SAMPLE_MID puts the deadline ahead. -/
def oneSample (_ : Fin 9) : Nat := 1

theorem bitsLeft_runHandler_lt {h : Handler} {s t : State} (hlegal : paramsLegal s.params)
    (hmem : h ∈ enabledHandlers (dispatchWord s)) (hrun : runHandler h s = .next t) : work bitsLeft t < work bitsLeft s := by
  refine work_runHandler_lt (fun n hn => Nat.sub_pos_of_lt hn) hlegal hmem hrun ?mid
  case mid =>
    rintro rfl -
    obtain ⟨h8, rfl⟩ := execSampleMid_eq_next.mp hrun
    exact Nat.sub_lt_sub_left h8 (Nat.lt_succ_self _)

theorem oneSample_runHandler_lt {h : Handler} {s t : State} (hi : Inv s) (hmem : h ∈ enabledHandlers (dispatchWord s))
    (hrun : runHandler h s = .next t) : work oneSample t < work oneSample s := by
  refine work_runHandler_lt (fun _ _ => Nat.one_pos) hi.legal hmem hrun ?mid
  case mid =>
    rintro rfl hdue
    simp [due_sampleMid hi hmem hrun] at hdue

/-! ### The loop ends -/

/-- The rule for the whole outcome of a loop whose handlers use up a measure below the bound: it ends as a leave does, or with the
handler that does not go on. -/
theorem loopFrom_outcome {o : Oracle} {Q : State → Prop} {m : State → Nat} {P : Host.Outcome State Fault Refusal → Prop}
    (hdraw : ∀ k s, Q s → Q (drawn k s)) (hmdraw : ∀ k s, m (drawn k s) = m s) (hleave : ∀ s, Q s → P (.next s))
    (hserve : ∀ h s t, Q s → h ∈ enabledHandlers (dispatchWord s) → runHandler h s = .next t → Q t ∧ m t < m s)
    (hstop : ∀ h s, Q s → h ∈ enabledHandlers (dispatchWord s) → (∀ t, runHandler h s ≠ .next t) → P (runHandler h s)) :
    ∀ {n : Nat} {s : State}, Q s → m s < n → P (loopFrom o n s) := by
  intro n
  induction n with
  | zero => intro s _ h; omega
  | succ n ih =>
    intro s hq hlt
    unfold loopFrom
    obtain ⟨k, hp, -⟩ | ⟨h, k, hp, hmem⟩ := pick_cases o s <;> rw [hp]
    · exact hleave _ (hdraw k s hq)
    · have hstop := hstop h (drawn k s) (hdraw k s hq) hmem
      cases hrun : runHandler h (drawn k s) with
      | next t =>
        obtain ⟨hqt, hmt⟩ := hserve h _ t (hdraw k s hq) hmem hrun
        rw [hmdraw] at hmt
        simpa [hrun] using ih hqt (by omega)
      | fault r => simpa [hrun] using hstop
      | refused r => simpa [hrun] using hstop

/-- No handler answers the loop's own refusal. -/
theorem runHandler_ne_iterationBound (h : Handler) (s : State) : runHandler h s ≠ .refused .iterationBound := by
  cases h with
  | edge => simp [runHandler, execEdge_eq_next]
  | sampleMid => by_cases h8 : s.bitsReceived.val < 8 <;> simp [runHandler, execSampleMid, sampleBit, h8]
  | sampleLast => by_cases h8 : s.bitsReceived.val < 8 <;> simp [runHandler, execSampleLast, sampleBit, h8]
  | reply =>
    cases he : s.empty with
    | true => simp [runHandler, execReply, pop_empty he]
    | false =>
      cases hb : s.buf.read? s.readIndex.val with
      | none => simp [runHandler, execReply, pop_of_unwritten he hb]
      | some b => simp [runHandler, execReply_of_byte he hb]

theorem loopFrom_ne_iterationBound {o : Oracle} {s : State} (hlegal : paramsLegal s.params) :
    loopFrom o loopBound s ≠ .refused .iterationBound := by
  refine loopFrom_outcome (Q := fun s => paramsLegal s.params) (m := work bitsLeft) (P := fun x => x ≠ .refused .iterationBound)
    (fun _ _ h => h) (fun _ _ => rfl) (fun _ _ => by simp) ?serve (fun h s _ _ _ => runHandler_ne_iterationBound h s) hlegal ?bound
  case serve =>
    intro h s t hlegal hmem hrun
    exact ⟨(sameSetting_runHandler hrun).params ▸ hlegal, bitsLeft_runHandler_lt hlegal hmem hrun⟩
  case bound => exact (work_le bitsLeft s).trans_lt (by unfold bitsLeft loopBound; omega)

/-- Settles O24: a tick is refused for its parameters or its request, or its loop ends within the bound. -/
theorem loopEndsInEveryTick : Obligations.LoopEndsInEveryTick := by
  intro o s q l
  by_cases hlegal : paramsLegal s.params
  case neg => simp [tickWith_of_illegal o q l hlegal]
  obtain hfree | ⟨rfl, hpending⟩ := free_or_pending q s
  · have hloop := loopFrom_ne_iterationBound (o := o) (s := openedTick o q l s) hlegal
    rw [tickWith_of_free hlegal hfree]
    cases hl : loopFrom o loopBound (openedTick o q l s) with
    | next u => simp
    | fault r => simp
    | refused r => simpa [hl] using hloop
  · simp [tickWith_of_pending o l hpending hlegal]

/-! ### From a state of the invariant -/

/-- Every enabled handler goes on: the count is at most 7 while receiving, and an unread byte is a written one. -/
theorem runHandler_goes_on {h : Handler} {s : State} (hi : Inv s) (hmem : h ∈ enabledHandlers (dispatchWord s)) :
    ∃ t, runHandler h s = .next t := by
  cases h with
  | edge => exact ⟨_, execEdge_eq_next s⟩
  | sampleMid =>
    have hcount := hi.receiver.countReceiving (sampleMid_enabled.mp hmem).1
    exact ⟨_, execSampleMid_eq_next.mpr ⟨by omega, rfl⟩⟩
  | sampleLast =>
    have hcount := hi.receiver.countReceiving (sampleLast_enabled.mp hmem).1
    exact ⟨_, execSampleLast_eq_next.mpr ⟨by omega, rfl⟩⟩
  | reply =>
    obtain ⟨u, hpop⟩ := pop_goes_on hi.queue (reply_enabled.mp hmem).2
    exact ⟨_, execReply_eq_next.mpr ⟨u, hpop, rfl⟩⟩

theorem loopFrom_goes_on {o : Oracle} {s : State} (hi : Inv s) : ∃ u, loopFrom o loopBound s = .next u := by
  refine loopFrom_outcome (Q := Inv) (m := work oneSample) (P := fun x => ∃ u, x = .next u) (fun k _ h => h.drawn k)
    (fun _ _ => rfl) (fun s _ => ⟨s, rfl⟩) ?serve ?stop hi ?bound
  case serve => exact fun h s t hi hmem hrun => ⟨hi.handler hmem hrun, oneSample_runHandler_lt hi hmem hrun⟩
  case stop =>
    intro h s hi hmem hstop
    obtain ⟨t, ht⟩ := runHandler_goes_on hi hmem
    exact absurd ht (hstop t)
  case bound => exact (work_le oneSample s).trans_lt (by unfold oneSample loopBound; omega)

/-- A tick with a request it may have completes, for every draw. -/
theorem tickWith_goes_on {s : State} (hi : Inv s) (o : Oracle) (q l : Bool) (hfree : q = true → s.reqPending = false) :
    ∃ t, tickWith o q l s = .next t := by
  obtain ⟨u, hu⟩ := loopFrom_goes_on (o := o) (inv_openedTick hi o q l)
  exact ⟨closeTick u, by rw [tickWith_of_free hi.legal hfree, hu, andThen_next]⟩

/-- Settles O22: the tick completes, and what it does to the line, the time and the setting holds of every tick that does. -/
theorem tickCompletes : Obligations.TickCompletes := by
  intro s q l hi hfree
  obtain ⟨t, ht⟩ := tickWith_goes_on hi Config.oracle q l hfree
  exact ⟨t, ht, tickWith_prevLevel ht, tickWith_rxd ht, tickWith_now ht, tickWith_params ht, tickWith_inputs ht⟩

/-- A handler writes one event. -/
theorem events_length_runHandler {h : Handler} {s t : State} (hrun : runHandler h s = .next t) :
    t.ghost.events.length = s.ghost.events.length + 1 := by
  cases h with
  | edge =>
    obtain rfl := execEdge_cases hrun
    exact List.length_append
  | sampleMid =>
    obtain ⟨-, rfl⟩ := execSampleMid_eq_next.mp hrun
    exact List.length_append
  | sampleLast =>
    obtain ⟨-, rfl⟩ := execSampleLast_eq_next.mp hrun
    exact List.length_append
  | reply =>
    obtain ⟨b, -, -, rfl⟩ := execReply_cases hrun
    exact List.length_append

/-- Settles O25: events written and work left never add up to more than the events before and the three a tick can find. -/
theorem atMostThreeHandlersInATick : Obligations.AtMostThreeHandlersInATick := by
  intro o s t q l hi h
  have hwork := work_le oneSample (openedTick o q l s)
  obtain ⟨u, rfl, ⟨-, hu⟩, -⟩ := tickWith_rule
    (Q := fun u => Inv u ∧ u.ghost.events.length + work oneSample u ≤ s.ghost.events.length + 3)
    ⟨inv_openedTick hi o q l, Nat.add_le_add_left hwork _⟩ (fun k _ hu => ⟨hu.1.drawn k, hu.2⟩)
    (fun h u v hu hmem hrun => ⟨hu.1.handler hmem hrun, by
      have hevents := events_length_runHandler hrun
      have hless := oneSample_runHandler_lt hu.1 hmem hrun
      omega⟩) h
  exact (Nat.le_add_right _ _).trans hu

end Sys2Proof
end

section
/-!
What the loop and the step choose by: the guards, the deferral, the parameters and the draws. Two states that agree on these run the
same operations, whatever else they hold.
-/

namespace Sys2Proof

open Machine

/-! ### The choice of one iteration -/

/-- The state `t` with the draw counter of `u`. -/
def withDrawsOf (u t : State) : State := { t with draws := u.draws }

theorem withDrawsOf_drawn {s t : State} (h : t.draws = s.draws) (k : Nat) : withDrawsOf (drawn k s) t = drawn k t := by
  rw [withDrawsOf, drawn_draws, ← h]; rfl

/-- The choice among enabled handlers turns on the parameters and the draws (R67). -/
theorem choose_congr (o : Oracle) (hs : List Handler) {s t : State} (hparams : t.params = s.params) (hdraws : t.draws = s.draws) :
    choose o hs t = (choose o hs s).map fun p => (p.1, withDrawsOf p.2 t) := by
  have hsame : withDrawsOf s t = t := withDrawsOf_drawn hdraws 0
  match hs with
  | [] => rfl
  | [h] => simp [choose, hsame]
  | h :: h' :: rest =>
    simp only [choose, hparams, hdraws]
    split
    · simp [hsame]
    · simp [withDrawsOf_drawn hdraws]

/-- Two states with the same guards, deferral, parameters and draws. -/
structure SameChoice (s t : State) : Prop where
  guards : dispatchWord t = dispatchWord s
  deferral : deferrable t (enabledHandlers (dispatchWord s)) = deferrable s (enabledHandlers (dispatchWord s))
  params : t.params = s.params
  draws : t.draws = s.draws

/-- A pick as it would be taken in the state `t`. -/
def pickOn (t : State) : Pick → Pick
  | .leave u => .leave (withDrawsOf u t)
  | .service h u => .service h (withDrawsOf u t)

theorem pick_congr (o : Oracle) {s t : State} (hc : SameChoice s t) : pick o t = pickOn t (pick o s) := by
  obtain ⟨hguards, hdeferral, hparams, hdraws⟩ := hc
  have hsame : withDrawsOf s t = t := withDrawsOf_drawn hdraws 0
  have hchoose := choose_congr o (enabledHandlers (dispatchWord s)) hparams hdraws
  have hchoose' := choose_congr o (enabledHandlers (dispatchWord s)) (s := drawn 1 s) (t := drawn 1 t) hparams
    (congrArg (· + 1) hdraws)
  unfold pick
  dsimp only
  rw [hguards, hdeferral, hdraws]
  by_cases hleave : (deferrable s (enabledHandlers (dispatchWord s)) && o.defer s.draws) = true
  · rw [if_pos hleave, if_pos hleave, pickOn, withDrawsOf_drawn hdraws]
  rw [if_neg hleave, if_neg hleave]
  by_cases hdefer : deferrable s (enabledHandlers (dispatchWord s)) = true
  · rw [if_pos hdefer, if_pos hdefer, hchoose']
    cases choose o (enabledHandlers (dispatchWord s)) (drawn 1 s) with
    | none => simp [pickOn, hsame]
    | some p => rfl
  · rw [if_neg hdefer, if_neg hdefer, hchoose]
    cases choose o (enabledHandlers (dispatchWord s)) s with
    | none => simp [pickOn, hsame]
    | some p => rfl

/-- Two states with the same choice leave alike, or service the same enabled handler. -/
theorem pick_both (o : Oracle) {s t : State} (hc : SameChoice s t) :
    (∃ k, pick o s = .leave (drawn k s) ∧ pick o t = .leave (drawn k t)) ∨
    (∃ h k, h ∈ enabledHandlers (dispatchWord s) ∧ pick o s = .service h (drawn k s) ∧ pick o t = .service h (drawn k t)) := by
  have hcongr := pick_congr o hc
  obtain ⟨k, hs, -⟩ | ⟨h, k, hs, hmem⟩ := pick_cases o s
  · exact .inl ⟨k, hs, by rw [hcongr, hs, pickOn, withDrawsOf_drawn hc.draws]⟩
  · exact .inr ⟨h, k, hmem, hs, by rw [hcongr, hs, pickOn, withDrawsOf_drawn hc.draws]⟩

/-! ### The operation of one step -/

/-- An operation a step from `s` can run. -/
def RunsInStep (s : State) (i : Instr) : Prop :=
  (∃ hd : Handler, i = hd.toInstr ∧ hd ∈ enabledHandlers (dispatchWord s)) ∨ i ∈ [Instr.waitA, .waitB, .waitC, .waitD] ∨
    (∃ b, i = .push b) ∨ i = .pop ∨ (∃ q l, i = .tick q l) ∨ i = .reset

theorem iterationOp_congr (o : Oracle) (dw : DispatchWord) {s t : State} (hparams : t.params = s.params) (hdraws : t.draws = s.draws) :
    iterationOp o dw t = (iterationOp o dw s).map fun p => (p.1, withDrawsOf p.2 t) := by
  have hsame : withDrawsOf s t = t := withDrawsOf_drawn hdraws 0
  unfold iterationOp
  rw [choose_congr o (enabledHandlers dw) hparams hdraws]
  cases choose o (enabledHandlers dw) s with
  | none => simp [Function.comp_def, hsame]
  | some p => rfl

/-- Two states with the same words, guards, parameters and draws are refused alike, move past the word alike, or run the same
operation. -/
theorem step_both {s t : State} (hinputs : t.inputs = s.inputs) (hguards : dispatchWord t = dispatchWord s)
    (hparams : t.params = s.params) (hdraws : t.draws = s.draws) :
    (∃ r, step s = .refused r ∧ step t = .refused r) ∨
    (step s = .next (dropInput s) ∧ step t = .next (dropInput t)) ∨
    (∃ i k, RunsInStep s i ∧ step s = exec i (drawn k (dropInput s)) ∧ step t = exec i (drawn k (dropInput t))) := by
  cases hin : s.inputs with
  | nil => exact .inl ⟨_, step_of_no_word hin, step_of_no_word (hinputs.trans hin)⟩
  | cons w rest =>
  have hin' := hinputs.trans hin
  cases hdec : decode w with
  | error e => exact .inl ⟨_, step_of_error hin hdec, step_of_error hin' hdec⟩
  | ok ops =>
  by_cases hport : w.port = Port.dispatch.tag
  · by_cases hne : ops = decodeDispatch (dispatchWord s)
    case neg => exact .inl ⟨_, step_of_mismatch hin hport hdec hne, step_of_mismatch hin' hport hdec (hguards ▸ hne)⟩
    subst hne
    obtain ⟨i, u, hop⟩ := exists_iterationOp Config.oracle (dispatchWord s) (dropInput s)
    obtain ⟨-, k, rfl⟩ := iterationOp_mem hop
    have hop' := iterationOp_congr Config.oracle (dispatchWord s) (s := dropInput s) (t := dropInput t) hparams hdraws
    rw [hop, Option.map_some, withDrawsOf_drawn (s := dropInput s) (t := dropInput t) hdraws, ← hguards] at hop'
    refine .inr (.inr ⟨i, k, ?_, step_of_match hin hport hdec hop, step_of_match hin' hport (hguards ▸ hdec) hop'⟩)
    obtain ⟨hd, hi, hmem, -⟩ | ⟨-, hmem, -⟩ := iterationOp_eq_some hop
    · exact .inl ⟨hd, hi, hmem⟩
    · exact .inr (.inl (mem_enabledWaits hmem))
  · cases ops with
    | nil => exact .inr (.inl ⟨step_of_nothing_selected hin hport hdec, step_of_nothing_selected hin' hport hdec⟩)
    | cons i ops =>
      refine .inr (.inr ⟨i, 0, .inr (.inr ?_), step_of_head hin hport hdec, step_of_head hin' hport hdec⟩)
      obtain ⟨hp, -⟩ | ⟨-, h | h | h⟩ | ⟨-, h⟩ | ⟨-, h | h⟩ := decode_cases hdec
      · exact absurd hp hport
      all_goals cases h
      · exact .inl ⟨_, rfl⟩
      · exact .inr (.inl rfl)
      · exact .inr (.inr (.inl ⟨_, _, rfl⟩))
      · exact .inr (.inr (.inr rfl))

/-! ### No fault -/

/-- From a state of the invariant none of these operations reads an unwritten element. -/
theorem exec_ne_fault {s : State} {i : Instr} (hi : Inv s) (hop : RunsInStep s i) (r : Fault) : exec i s ≠ .fault r := by
  obtain ⟨hd, rfl, hmem⟩ | hwait | ⟨b, rfl⟩ | rfl | ⟨q, l, rfl⟩ | rfl := hop
  · obtain ⟨t, ht⟩ := runHandler_goes_on hi hmem
    simp [exec_toInstr, ht]
  · simp [exec_wait hwait]
  · simp [exec_push_eq_next]
  · cases he : s.empty with
    | true => simp [exec_pop_eq_pop, pop_empty he]
    | false =>
      obtain ⟨t, ht⟩ := pop_goes_on hi.queue he
      simp [exec_pop_eq_pop, ht]
  · obtain hfree | ⟨rfl, hpending⟩ := free_or_pending q s
    · obtain ⟨t, ht⟩ := tickWith_goes_on hi Config.oracle q l hfree
      simp [exec_tick_eq_tickWith, ht]
    · simp [exec_tick_eq_tickWith, tickWith_of_pending _ l hpending hi.legal]
  · simp [exec_reset_eq_resetWith, resetWith]

/-- Settles O56: a step is refused, moves past its word, or runs an operation that does not fault. -/
theorem noStepFaultsFromTheInvariant : Obligations.NoStepFaultsFromTheInvariant := by
  intro s r hi hfault
  obtain ⟨_, h, -⟩ | ⟨h, -⟩ | ⟨i, k, hop, h, -⟩ := step_both (s := s) rfl rfl rfl rfl
  · cases hfault.symm.trans h
  · cases hfault.symm.trans h
  · exact exec_ne_fault (hi.dropInput.drawn k) hop r (h.symm.trans hfault)

end Sys2Proof
end

section
/-!
Relations between two runs: one that every operation keeps is kept by a tick and by a step. It is used three times: for another
origin of time (70_reset_and_hazards.md R127), other ghosts (10_state.md R29), and other values of what reset leaves unspecified (R128).
-/

namespace Sys2Proof

open Machine

/-! ### Outcomes of the same kind -/

/-- Both go on, to related states, or both stop for the same reason. -/
inductive SameOutcome (R : State → State → Prop) :
    Host.Outcome State Fault Refusal → Host.Outcome State Fault Refusal → Prop where
  | next {s t : State} : R s t → SameOutcome R (.next s) (.next t)
  | fault (r : Fault) : SameOutcome R (.fault r) (.fault r)
  | refused (r : Refusal) : SameOutcome R (.refused r) (.refused r)

theorem SameOutcome.andThen {R R' : State → State → Prop} {x y : Host.Outcome State Fault Refusal}
    {f g : State → Host.Outcome State Fault Refusal} (hxy : SameOutcome R x y)
    (hfg : ∀ s t, R s t → SameOutcome R' (f s) (g t)) : SameOutcome R' (andThen x f) (andThen y g) := by
  cases hxy with
  | next h => exact hfg _ _ h
  | fault r => exact .fault r
  | refused r => exact .refused r

theorem SameOutcome.exists_next {R : State → State → Prop} {x y : Host.Outcome State Fault Refusal} {s : State}
    (hxy : SameOutcome R x y) (hx : x = .next s) : ∃ t, y = .next t ∧ R s t := by
  subst hx
  cases hxy with
  | next h => exact ⟨_, rfl, h⟩

/-- Outcomes related by a function are an outcome and its image. -/
theorem SameOutcome.eq_mapNext {f : State → State} {x y : Host.Outcome State Fault Refusal}
    (hxy : SameOutcome (fun s t => t = f s) x y) : y = mapNext f x := by
  cases hxy with
  | next h => rw [h]; rfl
  | fault r => rfl
  | refused r => rfl

/-- Outcomes related by a common image have it in common. -/
theorem SameOutcome.mapNext_eq {f : State → State} {x y : Host.Outcome State Fault Refusal}
    (hxy : SameOutcome (fun s t => f t = f s) x y) : mapNext f y = mapNext f x := by
  cases hxy with
  | next h => exact congrArg Host.Outcome.next h
  | fault r => rfl
  | refused r => rfl

/-! ### When an operation goes on -/

/-- Whether POP goes on turns on the queue alone. -/
theorem pop_both {R : State → State → Prop} {s t : State} (hbuf : t.buf = s.buf) (hread : t.readIndex = s.readIndex)
    (hempty : t.empty = s.empty) (hnext : ∀ u v, pop s = .next u → pop t = .next v → R u v) : SameOutcome R (pop s) (pop t) := by
  cases he : s.empty with
  | true =>
    rw [pop_empty he, pop_empty (hempty.trans he)]
    exact .refused _
  | false =>
    cases hb : s.buf.read? s.readIndex.val with
    | none =>
      rw [pop_of_unwritten he hb, pop_of_unwritten (hempty.trans he) (by rwa [hbuf, hread]), hread]
      exact .fault _
    | some b =>
      have hs := pop_of_byte he hb
      have ht := pop_of_byte (s := t) (hempty.trans he) (by rwa [hbuf, hread])
      rw [hs, ht]
      exact .next (hnext _ _ hs ht)

/-- Whether REPLY goes on turns on the queue alone. -/
theorem execReply_both {R : State → State → Prop} {s t : State} (hbuf : t.buf = s.buf) (hread : t.readIndex = s.readIndex)
    (hempty : t.empty = s.empty) (hnext : ∀ u v, execReply s = .next u → execReply t = .next v → R u v) :
    SameOutcome R (execReply s) (execReply t) := by
  refine (pop_both (R := fun u v => pop s = .next u ∧ pop t = .next v) hbuf hread hempty fun _ _ => .intro).andThen ?_
  rintro u v ⟨hu, hv⟩
  exact .next (hnext _ _ (execReply_eq_next.mpr ⟨u, hu, rfl⟩) (execReply_eq_next.mpr ⟨v, hv, rfl⟩))

/-- Whether a handler goes on turns on the count and the queue alone. -/
theorem runHandler_both {R : State → State → Prop} (h : Handler) {s t : State} (hbits : t.bitsReceived = s.bitsReceived)
    (hbuf : t.buf = s.buf) (hread : t.readIndex = s.readIndex) (hempty : t.empty = s.empty)
    (hnext : ∀ u v, runHandler h s = .next u → runHandler h t = .next v → R u v) :
    SameOutcome R (runHandler h s) (runHandler h t) := by
  cases h with
  | edge => exact .next (hnext _ _ rfl rfl)
  | sampleMid =>
    by_cases h8 : s.bitsReceived.val < 8
    · have hs := execSampleMid_eq_next.mpr ⟨h8, rfl⟩
      have ht := (execSampleMid_eq_next (s := t)).mpr ⟨hbits ▸ h8, rfl⟩
      have := hnext _ _ hs ht
      rw [runHandler, runHandler, hs, ht]
      exact .next this
    · have hs : s.bitsReceived.val = 8 := by omega
      rw [runHandler, runHandler, execSampleMid, execSampleMid, sampleBit_of_eight hs, sampleBit_of_eight (hbits ▸ hs)]
      exact .refused _
  | sampleLast =>
    by_cases h8 : s.bitsReceived.val < 8
    · have hs := execSampleLast_eq_next.mpr ⟨h8, rfl⟩
      have ht := (execSampleLast_eq_next (s := t)).mpr ⟨hbits ▸ h8, rfl⟩
      have := hnext _ _ hs ht
      rw [runHandler, runHandler, hs, ht]
      exact .next this
    · have hs : s.bitsReceived.val = 8 := by omega
      rw [runHandler, runHandler, execSampleLast, execSampleLast, sampleBit_of_eight hs, sampleBit_of_eight (hbits ▸ hs)]
      exact .refused _
  | reply => exact execReply_both hbuf hread hempty hnext

/-! ### Relations a tick and a step keep -/

/-- A relation the parts of a tick keep, between states that choose alike. -/
structure KeptByTick (R : State → State → Prop) : Prop where
  choice : ∀ {s t}, R s t → SameChoice s t
  pending : ∀ {s t}, R s t → t.reqPending = s.reqPending
  drawn : ∀ {s t} k, R s t → R (drawn k s) (drawn k t)
  opened : ∀ {s t} o q l, R s t → R (openedTick o q l s) (openedTick o q l t)
  handler : ∀ {s t} h, R s t → h ∈ enabledHandlers (dispatchWord s) → SameOutcome R (runHandler h s) (runHandler h t)
  closed : ∀ {s t}, R s t → R (closeTick s) (closeTick t)

theorem KeptByTick.loopFrom {R : State → State → Prop} (hR : KeptByTick R) (o : Oracle) (n : Nat) {s t : State} (h : R s t) :
    SameOutcome R (loopFrom o n s) (loopFrom o n t) := by
  induction n generalizing s t with
  | zero => exact .refused _
  | succ n ih =>
    unfold Machine.loopFrom
    obtain ⟨k, hs, ht⟩ | ⟨hd, k, hmem, hs, ht⟩ := pick_both o (hR.choice h) <;> rw [hs, ht]
    · exact .next (hR.drawn k h)
    · exact (hR.handler hd (hR.drawn k h) hmem).andThen fun _ _ => ih

theorem KeptByTick.tickWith {R : State → State → Prop} (hR : KeptByTick R) (o : Oracle) (q l : Bool) {s t : State} (h : R s t) :
    SameOutcome R (tickWith o q l s) (tickWith o q l t) := by
  have hparams : t.params = s.params := (hR.choice h).params
  have hpend : t.reqPending = s.reqPending := hR.pending h
  by_cases hlegal : paramsLegal s.params
  case neg =>
    rw [tickWith_of_illegal o q l hlegal, tickWith_of_illegal o q l (hparams.symm ▸ hlegal)]
    exact .refused _
  have hlegal' : paramsLegal t.params := hparams.symm ▸ hlegal
  obtain hfree | ⟨rfl, hpending⟩ := free_or_pending q s
  · rw [tickWith_of_free hlegal hfree, tickWith_of_free hlegal' (hpend.symm ▸ hfree)]
    exact (hR.loopFrom o loopBound (hR.opened o q l h)).andThen fun _ _ hu => .next (hR.closed hu)
  · rw [tickWith_of_pending o l hpending hlegal, tickWith_of_pending o l (hpend.trans hpending) hlegal']
    exact .refused _

/-- A relation the other operations of a step keep as well, between states with the same words to come. -/
structure KeptByStep (R : State → State → Prop) : Prop extends KeptByTick R where
  inputs : ∀ {s t}, R s t → t.inputs = s.inputs
  dropInput : ∀ {s t}, R s t → R (dropInput s) (dropInput t)
  push : ∀ {s t} b, R s t → R (push b s) (push b t)
  pop : ∀ {s t}, R s t → SameOutcome R (pop s) (pop t)
  reset : ∀ {s t} o, R s t → SameOutcome R (resetWith o s) (resetWith o t)

theorem KeptByStep.exec {R : State → State → Prop} (hR : KeptByStep R) {s t : State} {i : Instr} (h : R s t)
    (hop : RunsInStep s i) : SameOutcome R (exec i s) (exec i t) := by
  obtain ⟨hd, rfl, hmem⟩ | hwait | ⟨b, rfl⟩ | rfl | ⟨q, l, rfl⟩ | rfl := hop
  · rw [exec_toInstr, exec_toInstr]
    exact hR.handler hd h hmem
  · rw [exec_wait hwait, exec_wait hwait]
    exact .next h
  · exact .next (hR.push b h)
  · exact hR.pop h
  · exact hR.tickWith Config.oracle q l h
  · exact hR.reset Config.oracle h

theorem KeptByStep.step {R : State → State → Prop} (hR : KeptByStep R) {s t : State} (h : R s t) :
    SameOutcome R (step s) (step t) := by
  obtain ⟨hguards, -, hparams, hdraws⟩ := hR.choice h
  obtain ⟨r, hs, ht⟩ | ⟨hs, ht⟩ | ⟨i, k, hop, hs, ht⟩ := step_both (hR.inputs h) hguards hparams hdraws <;> rw [hs, ht]
  · exact .refused r
  · exact .next (hR.dropInput h)
  · exact hR.exec (hR.drawn k (hR.dropInput h)) hop

/-! ### Another origin of time (R127) -/

theorem timeAdd_right_comm (w a b c : Nat) : timeAdd w (timeAdd w a b) c = timeAdd w (timeAdd w a c) b := by
  rw [timeAdd_assoc, timeAdd_assoc, Nat.add_comm b c]

theorem reached_shift (w now d k : Nat) : reached w (timeAdd w now k) (timeAdd w d k) = reached w now d := by
  simp only [reached, timeSub_shift]

theorem shiftTime_dispatchWord (k : Nat) (s : State) : dispatchWord (shiftTime k s) = dispatchWord s := by
  have hdue : due (shiftTime k s) = due s := congrArg (isReceiving s && ·) (reached_shift _ _ _ _)
  rw [dispatchWord, hdue]; rfl

theorem shiftTime_lag (k : Nat) (s : State) : lag (shiftTime k s) = lag s := timeSub_shift _ _ _ _

/-- A handler at another origin of time. -/
theorem shiftTime_runHandler {k : Nat} {h : Handler} {s u v : State} (hu : runHandler h s = .next u)
    (hv : runHandler h (shiftTime k s) = .next v) : v = shiftTime k u := by
  cases h with
  | edge =>
    obtain rfl := execEdge_cases hu
    obtain rfl := execEdge_cases hv
    simp only [shiftTime, timeAdd_right_comm _ _ k]
  | sampleMid =>
    obtain ⟨-, rfl⟩ := execSampleMid_eq_next.mp hu
    obtain ⟨-, rfl⟩ := execSampleMid_eq_next.mp hv
    simp only [shiftTime, logEvent, timeAdd_right_comm _ _ k]
  | sampleLast =>
    obtain ⟨-, rfl⟩ := execSampleLast_eq_next.mp hu
    obtain ⟨-, rfl⟩ := execSampleLast_eq_next.mp hv
    rfl
  | reply =>
    obtain ⟨b, -, hb, rfl⟩ := execReply_cases hu
    obtain ⟨b', -, hb', rfl⟩ := execReply_cases hv
    obtain rfl : b = b' := Option.some.inj (hb.symm.trans hb')
    simp only [shiftTime, afterReply, List.map_append, List.map_cons, List.map_nil]
    rfl

theorem keptByTick_shiftTime (k : Nat) : KeptByTick fun s t => t = shiftTime k s where
  choice := by
    rintro s _ rfl
    refine ⟨shiftTime_dispatchWord k s, ?_, rfl, rfl⟩
    rw [deferrable, shiftTime_lag]; rfl
  pending := by rintro s _ rfl; rfl
  drawn := by rintro s _ n rfl; rfl
  opened := by rintro s _ o q l rfl; rfl
  handler := by
    rintro s _ h rfl -
    exact runHandler_both h rfl rfl rfl rfl fun _ _ => shiftTime_runHandler
  closed := by
    rintro s _ rfl
    simp only [closeTick, shiftTime, timeAdd_right_comm _ _ k]

/-- Settles O46: the shift of the origin is a relation every part of a tick keeps. -/
theorem originOfTimeDoesNotMatter : Obligations.OriginOfTimeDoesNotMatter := fun o k _ q l =>
  ((keptByTick_shiftTime k).tickWith o q l rfl).eq_mapNext

/-! ### Other ghosts (R29) -/

theorem eraseGhost_eq_iff {s t : State} : eraseGhost t = eraseGhost s ↔ ∃ g, t = { s with ghost := g } := by
  constructor
  · intro h
    refine ⟨t.ghost, ?_⟩
    have := congrArg (fun x : State => { x with ghost := t.ghost }) h
    exact this
  · rintro ⟨g, rfl⟩; rfl

/-- A handler beside other ghosts. -/
theorem eraseGhost_runHandler {g : Ghost} {h : Handler} {s u v : State} (hu : runHandler h s = .next u)
    (hv : runHandler h { s with ghost := g } = .next v) : eraseGhost v = eraseGhost u := by
  cases h with
  | edge =>
    obtain rfl := execEdge_cases hu
    obtain rfl := execEdge_cases hv
    rfl
  | sampleMid =>
    obtain ⟨-, rfl⟩ := execSampleMid_eq_next.mp hu
    obtain ⟨-, rfl⟩ := execSampleMid_eq_next.mp hv
    rfl
  | sampleLast =>
    obtain ⟨-, rfl⟩ := execSampleLast_eq_next.mp hu
    obtain ⟨-, rfl⟩ := execSampleLast_eq_next.mp hv
    rfl
  | reply =>
    obtain ⟨b, -, hb, rfl⟩ := execReply_cases hu
    obtain ⟨b', -, hb', rfl⟩ := execReply_cases hv
    obtain rfl : b = b' := Option.some.inj (hb.symm.trans hb')
    rfl

theorem keptByStep_eraseGhost : KeptByStep fun s t => eraseGhost t = eraseGhost s := by
  simp only [eraseGhost_eq_iff]
  exact {
    choice := by rintro s _ ⟨g, rfl⟩; exact ⟨rfl, rfl, rfl, rfl⟩
    pending := by rintro s _ ⟨g, rfl⟩; rfl
    drawn := by rintro s _ k ⟨g, rfl⟩; exact ⟨g, rfl⟩
    opened := by rintro s _ o q l ⟨g, rfl⟩; exact ⟨g, rfl⟩
    handler := by
      rintro s _ h ⟨g, rfl⟩ -
      exact runHandler_both h rfl rfl rfl rfl fun _ _ hu hv => eraseGhost_eq_iff.mp (eraseGhost_runHandler hu hv)
    closed := by rintro s _ ⟨g, rfl⟩; exact ⟨_, rfl⟩
    inputs := by rintro s _ ⟨g, rfl⟩; rfl
    dropInput := by rintro s _ ⟨g, rfl⟩; exact ⟨g, rfl⟩
    push := by rintro s _ b ⟨g, rfl⟩; exact ⟨_, rfl⟩
    pop := by
      rintro s _ ⟨g, rfl⟩
      refine pop_both rfl rfl rfl fun u v hu hv => ?_
      obtain ⟨-, b, hb, rfl⟩ := pop_eq_next.mp hu
      obtain ⟨-, b', hb', rfl⟩ := pop_eq_next.mp hv
      obtain rfl : b = b' := Option.some.inj (hb.symm.trans hb')
      exact ⟨_, rfl⟩
    reset := by rintro s _ o ⟨g, rfl⟩; exact .next ⟨Ghost.start, rfl⟩ }

/-- Settles O48: having the same state beside the ghosts is a relation every operation of a step keeps. -/
theorem ghostQuantitiesAreNeverRead : Obligations.GhostQuantitiesAreNeverRead := fun _ g =>
  (keptByStep_eraseGhost.step (eraseGhost_eq_iff.mpr ⟨g, rfl⟩)).mapNext_eq

/-! ### Other values of what reset leaves unspecified (R128) -/

theorem agreeOnDefined_iff {s t : State} : AgreeOnDefined s t ↔
    ∃ b d, t = { s with partialByte := b, nextSampleDeadline := d } ∧
      (s.framing = .receiving → d = s.nextSampleDeadline ∧
        ∀ k, k < s.bitsReceived.val → b.getLsbD (7 - k) = s.partialByte.getLsbD (7 - k)) := by
  constructor
  · rintro ⟨heq, hdefined⟩
    exact ⟨_, _, heq, hdefined⟩
  · rintro ⟨b, d, rfl, hdefined⟩
    exact ⟨rfl, hdefined⟩

/-- The accumulator's bits after a sample: the new level at bit 7, the others one place down (R48). -/
theorem shiftIn_getLsbD (acc : Byte) (level : Bool) (i : Nat) (hi : i ≤ 7) :
    (shiftIn acc level).getLsbD i = if i = 7 then level else acc.getLsbD (i + 1) := by
  have hlevel : (zext8 level <<< 7 : Byte).getLsbD i = (decide (i = 7) && level) := by
    cases level <;> interval_cases i <;> rfl
  rw [shiftIn, BitVec.getLsbD_or, BitVec.getLsbD_ushiftRight, hlevel, Nat.add_comm 1 i]
  by_cases h7 : i = 7
  · subst h7; simp
  · simp [h7]

/-- Accumulators that agree on the samples taken agree on them after one more. -/
theorem shiftIn_agree {b c : Byte} {n : Nat} (level : Bool) (hn : n ≤ 7)
    (h : ∀ k, k < n → b.getLsbD (7 - k) = c.getLsbD (7 - k)) :
    ∀ k, k < n + 1 → (shiftIn b level).getLsbD (7 - k) = (shiftIn c level).getLsbD (7 - k) := by
  intro k hk
  rw [shiftIn_getLsbD _ _ _ (Nat.sub_le 7 k), shiftIn_getLsbD _ _ _ (Nat.sub_le 7 k)]
  split
  · rfl
  · have := h (k - 1) (by omega)
    rwa [show 7 - (k - 1) = 7 - k + 1 by omega] at this

/-- Eight samples leave nothing unspecified. -/
theorem eq_of_agree_eight {b c : Byte} (h : ∀ k, k < 8 → b.getLsbD (7 - k) = c.getLsbD (7 - k)) : b = c := by
  apply BitVec.eq_of_getLsbD_eq
  intro i hi
  simpa [show 7 - (7 - i) = i by omega] using h (7 - i) (by omega)

/-- While idle no SAMPLE is enabled, so nothing is deferred and the deadline is not read. -/
theorem not_deferrable_of_idle {s : State} (h : s.framing = .idle) (t : State) :
    deferrable t (enabledHandlers (dispatchWord s)) = false := by
  have hmid : enabledHandlers (dispatchWord s) ≠ [.sampleMid] := fun heq => by
    have hmem := sampleMid_enabled.mp (heq ▸ List.mem_singleton_self Handler.sampleMid)
    simp [h] at hmem
  have hlast : enabledHandlers (dispatchWord s) ≠ [.sampleLast] := fun heq => by
    have hmem := sampleLast_enabled.mp (heq ▸ List.mem_singleton_self Handler.sampleLast)
    simp [h] at hmem
  simp [deferrable, hmid, hlast]

theorem idle_or_receiving (f : Framing) : f = .idle ∨ f = .receiving := by cases f <;> simp

/-- The guards and the deferral read the deadline only while receiving, and the accumulator never. -/
theorem sameChoice_of_agree {s t : State} (h : AgreeOnDefined s t) : SameChoice s t := by
  obtain ⟨b, d, rfl, hdefined⟩ := agreeOnDefined_iff.mp h
  obtain hidle | hreceiving := idle_or_receiving s.framing
  · refine ⟨dispatchWord_with_deadline_of_idle hidle d, ?_, rfl, rfl⟩
    rw [not_deferrable_of_idle hidle, not_deferrable_of_idle hidle]
  · obtain ⟨rfl, -⟩ := hdefined hreceiving
    exact ⟨rfl, rfl, rfl, rfl⟩

/-- An enabled handler beside other unspecified values: EDGE writes the deadline, a SAMPLE_MID adds one defined bit, and a SAMPLE_LAST
pushes eight. -/
theorem agree_runHandler {h : Handler} {s t u v : State} (hst : AgreeOnDefined s t) (hmem : h ∈ enabledHandlers (dispatchWord s))
    (hu : runHandler h s = .next u) (hv : runHandler h t = .next v) : AgreeOnDefined u v := by
  obtain ⟨b, d, rfl, hdefined⟩ := agreeOnDefined_iff.mp hst
  apply agreeOnDefined_iff.mpr
  cases h with
  | edge =>
    obtain rfl := execEdge_cases hu
    obtain rfl := execEdge_cases hv
    exact ⟨b, _, rfl, fun _ => ⟨rfl, fun k hk => absurd hk (Nat.not_lt_zero k)⟩⟩
  | sampleMid =>
    obtain ⟨rfl, hbits⟩ := hdefined (sampleMid_enabled.mp hmem).1
    obtain ⟨h8, rfl⟩ := execSampleMid_eq_next.mp hu
    obtain ⟨-, rfl⟩ := execSampleMid_eq_next.mp hv
    exact ⟨_, _, rfl, fun _ => ⟨rfl, shiftIn_agree s.rxd (by omega) hbits⟩⟩
  | sampleLast =>
    obtain ⟨hreceiving, -, h7⟩ := sampleLast_enabled.mp hmem
    obtain ⟨rfl, hbits⟩ := hdefined hreceiving
    obtain ⟨h8, rfl⟩ := execSampleLast_eq_next.mp hu
    obtain ⟨-, rfl⟩ := execSampleLast_eq_next.mp hv
    have hbyte : shiftIn b s.rxd = shiftIn s.partialByte s.rxd := by
      rw [h7] at hbits
      exact eq_of_agree_eight (shiftIn_agree s.rxd le_rfl hbits)
    simp only [hbyte]
    exact ⟨_, _, rfl, fun _ => ⟨rfl, fun _ _ => rfl⟩⟩
  | reply =>
    obtain ⟨c, -, hc, rfl⟩ := execReply_cases hu
    obtain ⟨c', -, hc', rfl⟩ := execReply_cases hv
    obtain rfl : c = c' := Option.some.inj (hc.symm.trans hc')
    exact ⟨b, d, rfl, hdefined⟩

theorem keptByStep_agreeOnDefined : KeptByStep AgreeOnDefined where
  choice := sameChoice_of_agree
  handler := by
    rintro s t h hst hmem
    have hnext := fun u v => agree_runHandler (u := u) (v := v) hst hmem
    obtain ⟨b, d, rfl, -⟩ := agreeOnDefined_iff.mp hst
    exact runHandler_both h rfl rfl rfl rfl hnext
  pop := by
    intro s t hst
    obtain ⟨b, d, rfl, hdefined⟩ := agreeOnDefined_iff.mp hst
    refine pop_both rfl rfl rfl fun u v hu hv => ?_
    obtain ⟨-, c, hc, rfl⟩ := pop_eq_next.mp hu
    obtain ⟨-, c', hc', rfl⟩ := pop_eq_next.mp hv
    obtain rfl : c = c' := Option.some.inj (hc.symm.trans hc')
    exact agreeOnDefined_iff.mpr ⟨b, d, rfl, hdefined⟩
  reset := by
    intro s t o hst
    obtain ⟨b, d, rfl, -⟩ := agreeOnDefined_iff.mp hst
    exact .next (agreeOnDefined_iff.mpr ⟨_, _, rfl, fun _ => ⟨rfl, fun _ _ => rfl⟩⟩)
  pending := by rintro s t ⟨heq, -⟩; rw [heq]
  inputs := by rintro s t ⟨heq, -⟩; rw [heq]
  drawn := by
    intro s t k hst
    obtain ⟨b, d, rfl, hdefined⟩ := agreeOnDefined_iff.mp hst
    exact agreeOnDefined_iff.mpr ⟨b, d, rfl, hdefined⟩
  opened := by
    intro s t o q l hst
    obtain ⟨b, d, rfl, hdefined⟩ := agreeOnDefined_iff.mp hst
    exact agreeOnDefined_iff.mpr ⟨b, d, rfl, hdefined⟩
  closed := by
    intro s t hst
    obtain ⟨b, d, rfl, hdefined⟩ := agreeOnDefined_iff.mp hst
    exact agreeOnDefined_iff.mpr ⟨b, d, rfl, hdefined⟩
  dropInput := by
    intro s t hst
    obtain ⟨b, d, rfl, hdefined⟩ := agreeOnDefined_iff.mp hst
    exact agreeOnDefined_iff.mpr ⟨b, d, rfl, hdefined⟩
  push := by
    intro s t c hst
    obtain ⟨b, d, rfl, hdefined⟩ := agreeOnDefined_iff.mp hst
    exact agreeOnDefined_iff.mpr ⟨b, d, rfl, hdefined⟩

/-- Settles O49: agreeing on the defined values is a relation every operation of a step keeps, and reset states agree, being idle. -/
theorem unspecifiedResetValuesNeverLeak : Obligations.UnspecifiedResetValuesNeverLeak :=
  ⟨fun _ _ _ hst h => (keptByStep_agreeOnDefined.step hst).exists_next h, fun _ _ _ d' _ b' =>
    agreeOnDefined_iff.mpr ⟨b', d', rfl, fun h => by cases h⟩⟩

end Sys2Proof
end

section
/-!
How a tick's loop ends and what it serves (40_dispatch.md R67 to R70), and the request, its reply and the delivered bytes
(44_request_reply.md R98 to R102).
-/

namespace Sys2Proof

open Machine

/-! ### The end of the loop -/

theorem deferrable_iff {s : State} {hs : List Handler} : deferrable s hs = true ↔
    (hs = [.sampleMid] ∨ hs = [.sampleLast]) ∧ lag s < s.params.jitterMax := by
  simp [deferrable]

/-- Without jitter the loop ends only with nothing enabled (R69). -/
theorem enabled_nil_of_loopEnded {s : State} (hend : LoopEnded s) (hjitter : s.params.jitterMax = 0) :
    enabledHandlers (dispatchWord s) = [] := by
  obtain hnone | hdefer := hend
  · exact hnone
  · have := (deferrable_iff.mp hdefer).2
    omega

/-- A loop never ends with a reply to give: REPLY is never deferred (R69). -/
theorem empty_of_loopEnded {s : State} (hend : LoopEnded s) (hpending : s.reqPending = true) : s.empty = true := by
  by_contra hne
  have hmem := reply_enabled.mpr ⟨hpending, Bool.eq_false_iff.mpr hne⟩
  obtain hnone | hdefer := hend
  · simp [hnone] at hmem
  · obtain ⟨heq | heq, -⟩ := deferrable_iff.mp hdefer <;> simp [heq] at hmem

/-- Settles O26: the tick's setting is the loop's, and the loop ends as R68 and R69 say. -/
theorem noEnabledHandlerIsLeftWaiting : Obligations.NoEnabledHandlerIsLeftWaiting := by
  intro o s t q l h
  obtain ⟨u, rfl, hsame, hend⟩ := tickWith_setting h
  have hparams : u.params = s.params := hsame.params
  refine ⟨u, rfl, hsame.prevLevel, hsame.now, ?left, fun hjitter => enabled_nil_of_loopEnded hend (hparams ▸ hjitter)⟩
  case left => exact hend.imp_right fun hdefer => hparams ▸ deferrable_iff.mp hdefer

/-- A loop with nothing enabled is left at once. -/
theorem loopFrom_quiet {o : Oracle} {s : State} (hnone : enabledHandlers (dispatchWord s) = []) (n : Nat) :
    ∃ k, loopFrom o (n + 1) s = .next (drawn k s) := by
  obtain ⟨k, hp, -⟩ | ⟨h, k, -, hmem⟩ := pick_cases o s
  · exact ⟨k, by rw [loopFrom, hp]⟩
  · simp [hnone] at hmem

/-- Settles O23: the loop leaves the opened tick as it is but for the draws. -/
theorem quietTickKeepsTheState : Obligations.QuietTickKeepsTheState := by
  intro s q l hlegal hfree hquiet
  obtain ⟨k, hloop⟩ := loopFrom_quiet (o := Config.oracle) (s := openedTick Config.oracle q l s) hquiet 11
  have htick : tickWith Config.oracle q l s = .next (closeTick (drawn k (openedTick Config.oracle q l s))) := by
    rw [tickWith_of_free hlegal hfree, loopBound, hloop, andThen_next]
  exact ⟨_, _, _, htick⟩

/-! ### Which handler is served (R67, R69) -/

/-- Draws that pick the `n`-th order each time, and defer a SAMPLE or not. -/
def drawing (n : Nat) (defer : Bool) : Oracle :=
  { order := fun _ => n, defer := fun _ => defer, byte := fun _ => 0, time := fun _ => 0 }

/-- Among all orders some serves first any one of the handlers a dispatch word can enable together. -/
theorem exists_order_serving (dw : DispatchWord) : ∀ h ∈ enabledHandlers dw, ∃ n ∈ List.range 6,
    firstIn (ServiceOrder.all.getD (n % ServiceOrder.all.length) []) (enabledHandlers dw) = some h := by
  revert dw; decide

/-- With every order admitted, each enabled handler is chosen for some draws. -/
theorem exists_choose_serving {dw : DispatchWord} {h : Handler} (hmem : h ∈ enabledHandlers dw) {s : State}
    (hall : s.params.dispatchOrder = ServiceOrder.all) :
    ∃ n k, choose (drawing n false) (enabledHandlers dw) s = some (h, drawn k s) := by
  obtain ⟨n, -, hfirst⟩ := exists_order_serving dw h hmem
  generalize enabledHandlers dw = hs at hmem hfirst
  match hs, hmem with
  | [x], hmem => exact ⟨n, 0, by rw [List.mem_singleton.mp hmem]; rfl⟩
  | x :: y :: rest, _ =>
    refine ⟨n, 1, ?_⟩
    simp only [choose, hall]
    change some ((firstIn (ServiceOrder.all.getD (n % ServiceOrder.all.length) []) (x :: y :: rest)).getD x, drawn 1 s) = _
    rw [hfirst]
    rfl

theorem pick_of_choose {o : Oracle} {s t : State} {h : Handler} (hserve : o.defer s.draws = false)
    (hchoose : choose o (enabledHandlers (dispatchWord s))
      (if deferrable s (enabledHandlers (dispatchWord s)) = true then drawn 1 s else s) = some (h, t)) :
    pick o s = .service h t := by
  simp [pick, hserve, hchoose]

theorem pick_of_defer {o : Oracle} {s : State} (hdefer : o.defer s.draws = true)
    (hmay : deferrable s (enabledHandlers (dispatchWord s)) = true) : pick o s = .leave (drawn 1 s) := by
  simp [pick, hdefer, hmay]

/-- Settles O27: draws that never defer serve the handler their order puts first, and draws that always defer leave a SAMPLE. -/
theorem everyEnabledHandlerMayBeServed : Obligations.EveryEnabledHandlerMayBeServed := by
  intro s hall
  refine ⟨fun h hmem => ?served, fun hmay => ⟨drawing 0 true, 1, pick_of_defer rfl hmay⟩⟩
  case served =>
    by_cases hmay : deferrable s (enabledHandlers (dispatchWord s)) = true
    · obtain ⟨n, k, hchoose⟩ := exists_choose_serving hmem (s := drawn 1 s) hall
      exact ⟨drawing n false, 1 + k, pick_of_choose rfl (by rw [if_pos hmay, hchoose, drawn, drawn, drawn, Nat.add_assoc])⟩
    · obtain ⟨n, k, hchoose⟩ := exists_choose_serving hmem hall
      exact ⟨drawing n false, k, pick_of_choose rfl (by rw [if_neg hmay, hchoose])⟩

/-! ### The request and its reply -/

/-- What a handler of the receiver leaves alone: the reader's side of the queue, the request and the outputs. -/
theorem reader_of_runHandler {h : Handler} {s t : State} (hrun : runHandler h s = .next t) (hne : h ≠ .reply) :
    t.reqPending = s.reqPending ∧ t.rspValid = s.rspValid ∧ t.rspData = s.rspData ∧ t.readIndex = s.readIndex ∧
      t.ghost.delivered = s.ghost.delivered ∧ (s.empty = false → t.empty = false) := by
  cases h with
  | edge =>
    obtain rfl := execEdge_cases hrun
    exact ⟨rfl, rfl, rfl, rfl, rfl, id⟩
  | sampleMid =>
    obtain ⟨-, rfl⟩ := execSampleMid_eq_next.mp hrun
    exact ⟨rfl, rfl, rfl, rfl, rfl, id⟩
  | sampleLast =>
    obtain ⟨-, rfl⟩ := execSampleLast_eq_next.mp hrun
    exact ⟨rfl, rfl, rfl, rfl, rfl, fun _ => rfl⟩
  | reply => exact absurd rfl hne

/-- What the loop has done about the request since the tick opened in `a`: a reply takes the request and drives one byte, and until
one does the delivery trace stays and no byte leaves the queue. -/
structure Answered (a u : State) : Prop where
  pending : u.reqPending = (a.reqPending && !u.rspValid)
  delivered : u.rspValid = true → u.ghost.delivered = a.ghost.delivered ++ [(a.now, u.rspData)]
  undelivered : u.rspValid = false → u.ghost.delivered = a.ghost.delivered
  unread : u.rspValid = false → a.empty = false → u.empty = false
  now : u.now = a.now

theorem Answered.drawn {a u : State} (k : Nat) (h : Answered a u) : Answered a (drawn k u) :=
  ⟨h.pending, h.delivered, h.undelivered, h.unread, h.now⟩

theorem Answered.runHandler {a u v : State} {h : Handler} (ha : Answered a u) (hmem : h ∈ enabledHandlers (dispatchWord u))
    (hrun : runHandler h u = .next v) : Answered a v := by
  have hnow : v.now = a.now := (sameSetting_runHandler hrun).now.trans ha.now
  by_cases hreply : h = .reply
  · subst hreply
    obtain ⟨hpending, -⟩ := reply_enabled.mp hmem
    have hpending' := ha.pending.symm.trans hpending
    simp only [Bool.and_eq_true, Bool.not_eq_true'] at hpending'
    obtain ⟨-, hfresh⟩ := hpending'
    obtain ⟨b, -, -, rfl⟩ := execReply_cases hrun
    refine ⟨(Bool.and_false _).symm, fun _ => ?_, fun hv => (by cases hv), fun hv => (by cases hv), hnow⟩
    rw [← ha.undelivered hfresh, ← ha.now]
    rfl
  · obtain ⟨hpending, hvalid, hdata, -, hdelivered, hempty⟩ := reader_of_runHandler hrun hreply
    exact ⟨by rw [hpending, hvalid, ha.pending], by rw [hvalid, hdata, hdelivered]; exact ha.delivered,
      by rw [hvalid, hdelivered]; exact ha.undelivered, fun hv he => hempty (ha.unread (hvalid ▸ hv) he), hnow⟩

/-- A tick's loop, seen from the request. -/
theorem tickWith_answered {o : Oracle} {q l : Bool} {s t : State} (h : tickWith o q l s = .next t) :
    ∃ u, t = closeTick u ∧ Answered (openedTick o q l s) u ∧ LoopEnded u := by
  refine tickWith_rule ?opened (fun k _ hu => hu.drawn k) (fun _ _ _ hu hmem hrun => hu.runHandler hmem hrun) h
  case opened => exact ⟨by simp [openedTick], by simp [openedTick], fun _ => rfl, fun _ => id, rfl⟩

/-- Settles O34: at the end of the loop a request still pending has met no byte, and a byte there from the start stays until a reply. -/
theorem requestIsAnsweredWhenAByteIsThere : Obligations.RequestIsAnsweredWhenAByteIsThere := by
  intro o s t q l h
  obtain ⟨u, rfl, ha, hend⟩ := tickWith_answered h
  refine ⟨empty_of_loopEnded (s := u) hend, ha.pending, fun hrequest hbyte => ?answered⟩
  case answered =>
    have hopen : (openedTick o q l s).reqPending = true := by simpa [openedTick] using hrequest
    have hvalid : u.rspValid = true := by
      by_contra hnone
      have hnone := Bool.eq_false_iff.mpr hnone
      have hpending : u.reqPending = true := by rw [ha.pending, hopen, hnone]; rfl
      have hempty := empty_of_loopEnded hend hpending
      rw [ha.unread hnone hbyte] at hempty
      cases hempty
    exact ⟨hvalid, by rw [closeTick_reqPending, ha.pending, hvalid, Bool.not_true, Bool.and_false]⟩

/-- Settles O35: the delivery trace since the tick opened. -/
theorem rspValidExactlyWhenAReplyRan : Obligations.RspValidExactlyWhenAReplyRan := by
  intro o s t q l h
  obtain ⟨u, rfl, ha, -⟩ := tickWith_answered h
  exact ⟨ha.delivered, ha.undelivered⟩

/-! ### The bytes delivered (R102) -/

/-- The bytes delivered are in order where the queue, the bytes and the deliveries are the same. -/
theorem deliveryInv_of_same {s t : State} (hd : DeliveryInv s) (hbuf : t.buf = s.buf) (hwrite : t.writeIndex = s.writeIndex)
    (hread : t.readIndex = s.readIndex) (hempty : t.empty = s.empty) (hpushed : t.ghost.pushed = s.ghost.pushed)
    (hdelivered : t.ghost.delivered = s.ghost.delivered) (hoverruns : t.ghost.overruns = s.ghost.overruns) : DeliveryInv t := by
  have hbytes : unreadBytes t = unreadBytes s := by simp [unreadBytes, unread, unreadAt, hbuf, hwrite, hread, hempty]
  unfold DeliveryInv at hd ⊢
  rwa [hpushed, hdelivered, hoverruns, hbytes]

theorem deliveryInv_push {s : State} (hq : QueueInv s) (hd : DeliveryInv s) (b : Byte) : DeliveryInv (push b s) := by
  intro hnone
  rw [overruns_push] at hnone
  have hroom : unread s ≠ 10 := fun hfull => by rw [if_pos hfull] at hnone; omega
  have hbefore := hd (by omega)
  rw [unreadBytes_push hq.emptyMeets hroom, push_ghost, List.map_append, hbefore, List.append_assoc]
  rfl

theorem deliveryInv_reply {s t : State} (hq : QueueInv s) (hd : DeliveryInv s) (hrun : execReply s = .next t) : DeliveryInv t := by
  obtain ⟨u, hpop, rfl⟩ := execReply_eq_next.mp hrun
  have hbytes := unreadBytes_pop hq.emptyMeets hpop
  obtain ⟨-, b, -, rfl⟩ := pop_eq_next.mp hpop
  intro hnone
  have hbefore := hd hnone
  rw [hbytes] at hbefore
  refine hbefore.trans ?_
  simp only [logEvent_ghost, emitReply_ghost, List.map_append, List.map_cons, List.map_nil, List.append_assoc, List.singleton_append]
  rfl

theorem deliveryInv_runHandler {h : Handler} {s t : State} (hi : Inv s) (hd : DeliveryInv s) (hrun : runHandler h s = .next t) :
    DeliveryInv t := by
  cases h with
  | edge =>
    obtain rfl := execEdge_cases hrun
    exact deliveryInv_of_same hd rfl rfl rfl rfl rfl rfl rfl
  | sampleMid =>
    obtain ⟨-, rfl⟩ := execSampleMid_eq_next.mp hrun
    exact deliveryInv_of_same hd rfl rfl rfl rfl rfl rfl rfl
  | sampleLast =>
    obtain ⟨-, rfl⟩ := execSampleLast_eq_next.mp hrun
    exact deliveryInv_of_same (deliveryInv_push (hi.queue.of_same rfl rfl rfl rfl)
      (deliveryInv_of_same hd rfl rfl rfl rfl rfl rfl rfl) _) rfl rfl rfl rfl rfl rfl rfl
  | reply => exact deliveryInv_reply hi.queue hd hrun

/-- Settles O37: PUSH adds a byte to the pushed and to the unread, REPLY moves one from the unread to the
delivered, and RESET starts with none. -/
theorem deliveryKeepsProductionOrder : Obligations.DeliveryKeepsProductionOrder := by
  refine ⟨fun o s t q l hi hd h => ?tick, fun o s t h => ?reset⟩
  case tick =>
    obtain ⟨u, rfl, ⟨-, hu⟩, -⟩ := tickWith_rule (Q := fun u => Inv u ∧ DeliveryInv u)
      ⟨inv_openedTick hi o q l, deliveryInv_of_same hd rfl rfl rfl rfl rfl rfl rfl⟩
      (fun k _ hu => ⟨hu.1.drawn k, deliveryInv_of_same hu.2 rfl rfl rfl rfl rfl rfl rfl⟩)
      (fun _ _ _ hu hmem hrun => ⟨hu.1.handler hmem hrun, deliveryInv_runHandler hu.1 hu.2 hrun⟩) h
    exact deliveryInv_of_same hu rfl rfl rfl rfl rfl rfl rfl
  case reset =>
    obtain rfl := Host.Outcome.next.inj h
    exact fun _ => rfl

end Sys2Proof
end

section
/-!
The receiver in a tick (40_dispatch.md R66, R71): whatever replies and draws come between, the receiver's part of the state moves as
if its own handlers ran alone; from a state of the invariant those are none, EDGE, one SAMPLE, or SAMPLE_LAST and then EDGE.
-/

namespace Sys2Proof

open Machine

/-! ### The receiver's part of the state -/

/-- The same parameters, receiver, line and timer, and the same bytes pushed and written. -/
structure SameReceiver (s t : State) : Prop where
  params : t.params = s.params
  framing : t.framing = s.framing
  bitsReceived : t.bitsReceived = s.bitsReceived
  partialByte : t.partialByte = s.partialByte
  deadline : t.nextSampleDeadline = s.nextSampleDeadline
  prevLevel : t.prevLevel = s.prevLevel
  rxd : t.rxd = s.rxd
  now : t.now = s.now
  buf : t.buf = s.buf
  writeIndex : t.writeIndex = s.writeIndex
  pushed : t.ghost.pushed = s.ghost.pushed

theorem SameReceiver.refl (s : State) : SameReceiver s s := ⟨rfl, rfl, rfl, rfl, rfl, rfl, rfl, rfl, rfl, rfl, rfl⟩

theorem SameReceiver.trans {s t u : State} (h : SameReceiver s t) (h' : SameReceiver t u) : SameReceiver s u :=
  ⟨h'.params.trans h.params, h'.framing.trans h.framing, h'.bitsReceived.trans h.bitsReceived, h'.partialByte.trans h.partialByte,
    h'.deadline.trans h.deadline, h'.prevLevel.trans h.prevLevel, h'.rxd.trans h.rxd, h'.now.trans h.now, h'.buf.trans h.buf,
    h'.writeIndex.trans h.writeIndex, h'.pushed.trans h.pushed⟩

theorem sameReceiver_drawn (k : Nat) (s : State) : SameReceiver s (drawn k s) := ⟨rfl, rfl, rfl, rfl, rfl, rfl, rfl, rfl, rfl, rfl, rfl⟩

theorem sameReceiver_reply {s t : State} (hrun : execReply s = .next t) : SameReceiver s t := by
  obtain ⟨b, -, -, rfl⟩ := execReply_cases hrun
  exact ⟨rfl, rfl, rfl, rfl, rfl, rfl, rfl, rfl, rfl, rfl, rfl⟩

theorem receiverView_eq_iff {s t : State} : receiverView t = receiverView s ↔
    t.framing = s.framing ∧ t.bitsReceived = s.bitsReceived ∧ t.partialByte = s.partialByte ∧
      t.nextSampleDeadline = s.nextSampleDeadline ∧ t.prevLevel = s.prevLevel ∧ t.rxd = s.rxd ∧ t.now = s.now := by
  simp [receiverView]

theorem SameReceiver.view {s t : State} (h : SameReceiver s t) : receiverView t = receiverView s :=
  receiverView_eq_iff.mpr ⟨h.framing, h.bitsReceived, h.partialByte, h.deadline, h.prevLevel, h.rxd, h.now⟩

/-- The receiver's guards turn on its own part of the state. -/
theorem enabled_iff_of_view {s t : State} {h : Handler} (hne : h ≠ .reply) (hparams : t.params = s.params)
    (hview : receiverView t = receiverView s) : h ∈ enabledHandlers (dispatchWord t) ↔ h ∈ enabledHandlers (dispatchWord s) := by
  obtain ⟨hframing, hbits, -, hdeadline, hprev, hrxd, hnow⟩ := receiverView_eq_iff.mp hview
  cases h with
  | edge => rw [edge_enabled, edge_enabled, hframing, hprev, hrxd]
  | sampleMid => rw [sampleMid_enabled, sampleMid_enabled, hframing, hparams, hnow, hdeadline, hbits]
  | sampleLast => rw [sampleLast_enabled, sampleLast_enabled, hframing, hparams, hnow, hdeadline, hbits]
  | reply => exact absurd rfl hne

/-- Where a receiver came to an end with nothing enabled, none of its handlers was enabled at a state with the same receiver. -/
theorem SameReceiver.not_enabled {s t : State} (hsame : SameReceiver s t) (hend : enabledHandlers (dispatchWord t) = [])
    {h : Handler} (hne : h ≠ .reply) : h ∉ enabledHandlers (dispatchWord s) := by
  rw [← enabled_iff_of_view hne hsame.params hsame.view, hend]
  exact List.not_mem_nil

/-- A handler of the receiver moves it as it moves any state with the same receiver. -/
theorem runHandler_view {s t u v : State} {h : Handler} (hne : h ≠ .reply) (hparams : t.params = s.params)
    (hview : receiverView t = receiverView s) (hu : runHandler h s = .next u) (hv : runHandler h t = .next v) :
    receiverView v = receiverView u := by
  obtain ⟨hframing, hbits, hpartial, hdeadline, hprev, hrxd, hnow⟩ := receiverView_eq_iff.mp hview
  cases h with
  | edge =>
    obtain rfl := execEdge_cases hu
    obtain rfl := execEdge_cases hv
    simp [receiverView, hpartial, hprev, hrxd, hnow, hparams]
  | sampleMid =>
    obtain ⟨-, rfl⟩ := execSampleMid_eq_next.mp hu
    obtain ⟨-, rfl⟩ := execSampleMid_eq_next.mp hv
    simp [receiverView, hframing, hbits, hpartial, hdeadline, hprev, hrxd, hnow, hparams]
  | sampleLast =>
    obtain ⟨-, rfl⟩ := execSampleLast_eq_next.mp hu
    obtain ⟨-, rfl⟩ := execSampleLast_eq_next.mp hv
    simp [receiverView, hbits, hpartial, hdeadline, hprev, hrxd, hnow]
  | reply => exact absurd rfl hne

theorem runHandler_sameReceiver {s t v : State} {h : Handler} (hne : h ≠ .reply) (hsame : SameReceiver s t)
    (hv : runHandler h t = .next v) : ∃ u, runHandler h s = .next u ∧ SameReceiver u v := by
  obtain ⟨hparams, hframing, hbits, hpartial, hdeadline, hprev, hrxd, hnow, hbuf, hwrite, hpushed⟩ := hsame
  cases h with
  | edge =>
    obtain rfl := execEdge_cases hv
    refine ⟨_, execEdge_eq_next s, ?_⟩
    constructor <;> simp [*]
  | sampleMid =>
    obtain ⟨h8, rfl⟩ := execSampleMid_eq_next.mp hv
    refine ⟨_, execSampleMid_eq_next.mpr ⟨hbits ▸ h8, rfl⟩, ?_⟩
    constructor <;> simp [*]
  | sampleLast =>
    obtain ⟨h8, rfl⟩ := execSampleLast_eq_next.mp hv
    refine ⟨_, execSampleLast_eq_next.mpr ⟨hbits ▸ h8, rfl⟩, ?_⟩
    constructor <;> simp [*]
  | reply => exact absurd rfl hne

/-! ### The receiver's handlers alone -/

/-- The receiver of the last state is the first one's after these enabled handlers, run alone. -/
inductive ReceiverRan : State → List Handler → State → Prop where
  | done {s t : State} : SameReceiver s t → ReceiverRan s [] t
  | run {s t u : State} {h : Handler} {hs : List Handler} : h ≠ .reply → h ∈ enabledHandlers (dispatchWord s) →
      runHandler h s = .next t → ReceiverRan t hs u → ReceiverRan s (h :: hs) u

theorem ReceiverRan.same {s t u : State} {hs : List Handler} (hr : ReceiverRan s hs t) (hsame : SameReceiver t u) :
    ReceiverRan s hs u := by
  induction hr with
  | done h => exact .done (h.trans hsame)
  | run hne hmem hrun _ ih => exact .run hne hmem hrun (ih hsame)

/-- One more handler of the receiver. -/
theorem ReceiverRan.snoc {s t u : State} {hs : List Handler} {h : Handler} (hr : ReceiverRan s hs t) (hne : h ≠ .reply)
    (hmem : h ∈ enabledHandlers (dispatchWord t)) (hrun : runHandler h t = .next u) : ReceiverRan s (hs ++ [h]) u := by
  induction hr with
  | done hsame =>
    obtain ⟨v, hv, hvu⟩ := runHandler_sameReceiver hne hsame hrun
    exact .run hne ((enabled_iff_of_view hne hsame.params hsame.view).mp hmem) hv (.done hvu)
  | run hne' hmem' hrun' _ ih => exact .run hne' hmem' hrun' (ih hmem hrun)

/-- Any handler the loop runs is one more of the receiver's, or leaves the receiver as it is. -/
theorem ReceiverRan.runHandler {s t u : State} {hs : List Handler} {h : Handler} (hr : ReceiverRan s hs t)
    (hmem : h ∈ enabledHandlers (dispatchWord t)) (hrun : runHandler h t = .next u) : ∃ hs', ReceiverRan s hs' u := by
  by_cases hreply : h = .reply
  · subst hreply
    exact ⟨hs, hr.same (sameReceiver_reply hrun)⟩
  · exact ⟨hs ++ [h], hr.snoc hreply hmem hrun⟩

/-- A tick's loop, seen from the receiver. -/
theorem tickWith_receiver {o : Oracle} {q l : Bool} {s t : State} (h : tickWith o q l s = .next t) :
    ∃ u, t = closeTick u ∧ (∃ hs, ReceiverRan (openedTick o q l s) hs u) ∧ LoopEnded u :=
  tickWith_rule (Q := fun u => ∃ hs, ReceiverRan (openedTick o q l s) hs u) ⟨[], .done (.refl _)⟩
    (fun k u ⟨hs, hu⟩ => ⟨hs, hu.same (sameReceiver_drawn k u)⟩) (fun _ _ _ ⟨_, hu⟩ hmem hrun => hu.runHandler hmem hrun) h

/-! ### The receiver's run is determined (R104) -/

/-- At most one handler of the receiver is enabled (R53). -/
theorem receiver_handler_unique {dw : DispatchWord} {h h' : Handler} (hmem : h ∈ enabledHandlers dw) (hne : h ≠ .reply)
    (hmem' : h' ∈ enabledHandlers dw) (hne' : h' ≠ .reply) : h = h' := by
  have hunique : ∀ dw : DispatchWord, ∀ h ∈ enabledHandlers dw, ∀ h' ∈ enabledHandlers dw,
      h ≠ .reply → h' ≠ .reply → h = h' := by
    decide
  exact hunique dw h hmem h' hmem' hne hne'

theorem ReceiverRan.view_eq {s t s' t' : State} {hs hs' : List Handler} (hr : ReceiverRan s hs t) (hr' : ReceiverRan s' hs' t')
    (hparams : s'.params = s.params) (hview : receiverView s' = receiverView s)
    (hend : enabledHandlers (dispatchWord t) = []) (hend' : enabledHandlers (dispatchWord t') = []) :
    receiverView t' = receiverView t := by
  induction hr generalizing s' hs' with
  | done hsame =>
    cases hr' with
    | done hsame' => rw [hsame'.view, hview, hsame.view]
    | run hne hmem _ _ => exact absurd ((enabled_iff_of_view hne hparams hview).mp hmem) (hsame.not_enabled hend hne)
  | run hne hmem hrun _ ih =>
    cases hr' with
    | done hsame' => exact absurd ((enabled_iff_of_view hne hparams hview).mpr hmem) (hsame'.not_enabled hend' hne)
    | run hne' hmem' hrun' hrest' =>
      obtain rfl := receiver_handler_unique hmem hne ((enabled_iff_of_view hne' hparams hview).mp hmem') hne'
      have hsetting := sameSetting_runHandler hrun
      have hsetting' := sameSetting_runHandler hrun'
      exact ih hrest' (by rw [hsetting'.params, hparams, hsetting.params]) (runHandler_view hne hparams hview hrun hrun') hend

/-- Settles O47: without jitter both loops run the receiver to where it enables nothing, and that run is determined by its start. -/
theorem consumerNeverDisturbsTheReceiver : Obligations.ConsumerNeverDisturbsTheReceiver := by
  intro o o' s t s' t' q q' l hjitter hparams hview h h'
  obtain ⟨u, rfl, ⟨hs, hran⟩, hend⟩ := tickWith_receiver h
  obtain ⟨u', rfl, ⟨hs', hran'⟩, hend'⟩ := tickWith_receiver h'
  have hu : u.params = s.params := (tickWith_params h :)
  have hu' : u'.params = s.params := (tickWith_params h' :).trans hparams
  have hopen : receiverView (openedTick o' q' l s') = receiverView (openedTick o q l s) := by
    obtain ⟨hframing, hbits, hpartial, hdeadline, hprev, -, hnow⟩ := receiverView_eq_iff.mp hview
    exact receiverView_eq_iff.mpr ⟨hframing, hbits, hpartial, hdeadline, hprev, rfl, hnow⟩
  have hloop := hran.view_eq hran' hparams hopen (enabled_nil_of_loopEnded hend (hu ▸ hjitter))
    (enabled_nil_of_loopEnded hend' (hu' ▸ hjitter))
  obtain ⟨hframing, hbits, hpartial, hdeadline, -, hrxd, hnow⟩ := receiverView_eq_iff.mp hloop
  exact receiverView_eq_iff.mpr ⟨hframing, hbits, hpartial, hdeadline, hrxd, hrxd, by
    rw [closeTick_now, closeTick_now, hu, hu', hnow]⟩

/-! ### From a state of the invariant -/

/-- Once a receiver is ahead of its deadline it has nothing more to do in the tick. -/
theorem ReceiverRan.same_of_ahead {s t : State} {hs : List Handler} (hr : ReceiverRan s hs t) (hreceiving : s.framing = .receiving)
    (hahead : due s = false) : SameReceiver s t := by
  cases hr with
  | done hsame => exact hsame
  | @run _ _ _ h _ hne hmem _ _ =>
    exfalso
    have hnotDue : ¬ reached s.params.timeW s.now s.nextSampleDeadline = true := fun hreached => by
      simp [due_iff.mpr ⟨hreceiving, hreached⟩] at hahead
    cases h with
    | edge => exact absurd ((edge_enabled.mp hmem).1.symm.trans hreceiving) (by decide)
    | sampleMid => exact hnotDue (sampleMid_enabled.mp hmem).2.1
    | sampleLast => exact hnotDue (sampleLast_enabled.mp hmem).2.1
    | reply => exact hne rfl

/-- What the receiver does in one tick, from its part of `s` to its part of `t`. -/
inductive ReceiverTick (s t : State) : Prop where
  | nothing (hsame : SameReceiver s t)
  | edge {u : State} (hmem : Handler.edge ∈ enabledHandlers (dispatchWord s)) (hrun : execEdge s = .next u)
      (hsame : SameReceiver u t)
  | sampleMid {u : State} (hmem : Handler.sampleMid ∈ enabledHandlers (dispatchWord s)) (hrun : execSampleMid s = .next u)
      (hsame : SameReceiver u t)
  | sampleLast {u : State} (hmem : Handler.sampleLast ∈ enabledHandlers (dispatchWord s)) (hrun : execSampleLast s = .next u)
      (hsame : SameReceiver u t)
  | sampleLastEdge {u v : State} (hmem : Handler.sampleLast ∈ enabledHandlers (dispatchWord s)) (hrun : execSampleLast s = .next u)
      (hmem' : Handler.edge ∈ enabledHandlers (dispatchWord u)) (hrun' : execEdge u = .next v) (hsame : SameReceiver v t)

theorem framing_execEdge {s t : State} (hrun : execEdge s = .next t) : t.framing = .receiving := by
  obtain rfl := execEdge_cases hrun
  rfl

theorem framing_execSampleMid {s t : State} (hrun : execSampleMid s = .next t) : t.framing = s.framing := by
  obtain ⟨-, rfl⟩ := execSampleMid_eq_next.mp hrun
  rfl

theorem framing_execSampleLast {s t : State} (hrun : execSampleLast s = .next t) : t.framing = .idle := by
  obtain ⟨-, rfl⟩ := execSampleLast_eq_next.mp hrun
  rfl

/-- While idle only EDGE can run, and after it the receiver is ahead. -/
theorem ReceiverRan.of_idle {s t : State} {hs : List Handler} (hr : ReceiverRan s hs t) (hlegal : paramsLegal s.params)
    (hidle : s.framing = .idle) : SameReceiver s t ∨
      ∃ u, Handler.edge ∈ enabledHandlers (dispatchWord s) ∧ execEdge s = .next u ∧ SameReceiver u t := by
  cases hr with
  | done hsame => exact .inl hsame
  | @run _ u _ h _ hne hmem hrun hrest =>
    cases h with
    | edge => exact .inr ⟨u, hmem, hrun, hrest.same_of_ahead (framing_execEdge hrun) (due_edge hlegal hrun)⟩
    | sampleMid => exact absurd (hidle.symm.trans (sampleMid_enabled.mp hmem).1) (by decide)
    | sampleLast => exact absurd (hidle.symm.trans (sampleLast_enabled.mp hmem).1) (by decide)
    | reply => exact absurd rfl hne

/-- From a state of the invariant the receiver's run is one of five. -/
theorem ReceiverRan.cases_of_inv {s t : State} {hs : List Handler} (hr : ReceiverRan s hs t) (hi : Inv s) : ReceiverTick s t := by
  obtain hidle | hreceiving := idle_or_receiving s.framing
  · obtain hsame | ⟨u, hmem, hrun, hsame⟩ := hr.of_idle hi.legal hidle
    · exact .nothing hsame
    · exact .edge hmem hrun hsame
  cases hr with
  | done hsame => exact .nothing hsame
  | @run _ u _ h _ hne hmem hrun hrest =>
    cases h with
    | edge => exact absurd ((edge_enabled.mp hmem).1.symm.trans hreceiving) (by decide)
    | sampleMid =>
      have hstill : u.framing = .receiving := (framing_execSampleMid hrun).trans hreceiving
      exact .sampleMid hmem hrun (hrest.same_of_ahead hstill (due_sampleMid hi hmem hrun))
    | sampleLast =>
      obtain hsame | ⟨v, hmem', hrun', hsame⟩ := hrest.of_idle (hi.handler hmem hrun).legal (framing_execSampleLast hrun)
      · exact .sampleLast hmem hrun hsame
      · exact .sampleLastEdge hmem hrun hmem' hrun' hsame
    | reply => exact absurd rfl hne

/-- A tick from a state of the invariant, seen from the receiver. -/
theorem receiverTick_of_tickWith {o : Oracle} {q l : Bool} {s t : State} (hi : Inv s) (h : tickWith o q l s = .next t) :
    ∃ u, t = closeTick u ∧ ReceiverTick (openedTick o q l s) u ∧ LoopEnded u := by
  obtain ⟨u, rfl, ⟨hs, hran⟩, hend⟩ := tickWith_receiver h
  exact ⟨u, rfl, hran.cases_of_inv (inv_openedTick hi o q l), hend⟩

/-! ### The byte a tick ends -/

/-- What SAMPLE_LAST does with its byte. -/
theorem execSampleLast_byte {s t : State} (hrun : execSampleLast s = .next t) :
    t.partialByte = shiftIn s.partialByte s.rxd ∧ t.buf = s.buf.write s.writeIndex.val t.partialByte ∧
      t.ghost.pushed = s.ghost.pushed ++ [t.partialByte] ∧ t.bitsReceived.val = s.bitsReceived.val + 1 := by
  obtain ⟨-, rfl⟩ := execSampleLast_eq_next.mp hrun
  exact ⟨rfl, rfl, rfl, rfl⟩

/-- What SAMPLE_MID does with its bit and the deadline. -/
theorem execSampleMid_bit {s t : State} (hrun : execSampleMid s = .next t) :
    t.partialByte = shiftIn s.partialByte s.rxd ∧ t.bitsReceived.val = s.bitsReceived.val + 1 ∧
      t.nextSampleDeadline = timeAdd s.params.timeW s.nextSampleDeadline s.params.bitPeriod := by
  obtain ⟨-, rfl⟩ := execSampleMid_eq_next.mp hrun
  exact ⟨rfl, rfl, rfl⟩

/-- What EDGE and SAMPLE_MID leave of the queue's writer. -/
theorem writer_execEdge {s t : State} (hrun : execEdge s = .next t) :
    t.buf = s.buf ∧ t.ghost.pushed = s.ghost.pushed ∧ t.partialByte = s.partialByte := by
  obtain rfl := execEdge_cases hrun
  exact ⟨rfl, rfl, rfl⟩

theorem writer_execSampleMid {s t : State} (hrun : execSampleMid s = .next t) :
    t.buf = s.buf ∧ t.ghost.pushed = s.ghost.pushed := by
  obtain ⟨-, rfl⟩ := execSampleMid_eq_next.mp hrun
  exact ⟨rfl, rfl⟩

/-- A tick of the receiver writes nothing, or one byte at the write index. -/
theorem ReceiverTick.written {s t : State} (h : ReceiverTick s t) : (t.buf = s.buf ∧ t.ghost.pushed = s.ghost.pushed) ∨
    ∃ b, t.buf = s.buf.write s.writeIndex.val b ∧ t.ghost.pushed = s.ghost.pushed ++ [b] := by
  cases h with
  | nothing hsame => exact .inl ⟨hsame.buf, hsame.pushed⟩
  | edge _ hrun hsame =>
    obtain ⟨hbuf, hpushed, -⟩ := writer_execEdge hrun
    exact .inl ⟨hsame.buf.trans hbuf, hsame.pushed.trans hpushed⟩
  | sampleMid _ hrun hsame =>
    obtain ⟨hbuf, hpushed⟩ := writer_execSampleMid hrun
    exact .inl ⟨hsame.buf.trans hbuf, hsame.pushed.trans hpushed⟩
  | sampleLast _ hrun hsame =>
    obtain ⟨-, hbuf, hpushed, -⟩ := execSampleLast_byte hrun
    exact .inr ⟨_, hsame.buf.trans hbuf, hsame.pushed.trans hpushed⟩
  | sampleLastEdge _ hrun _ hrun' hsame =>
    obtain ⟨-, hbuf, hpushed, -⟩ := execSampleLast_byte hrun
    obtain ⟨hbuf', hpushed', -⟩ := writer_execEdge hrun'
    exact .inr ⟨_, hsame.buf.trans (hbuf'.trans hbuf), hsame.pushed.trans (hpushed'.trans hpushed)⟩

/-- Settles O33: the receiver's tick writes at the write index, if at all. -/
theorem tickWritesAtMostOneElement : Obligations.TickWritesAtMostOneElement := by
  intro o s t q l hi h a ha
  obtain ⟨u, rfl, hrecv, -⟩ := receiverTick_of_tickWith hi h
  obtain ⟨hbuf, -⟩ | ⟨b, hbuf, -⟩ := hrecv.written
  · exact congrArg (·.read? a) hbuf
  · exact (congrArg (·.read? a) hbuf).trans (Memory.read?_write_other _ _ a b ha)

/-- Settles O31: of the receiver's five ticks only the one that ends with SAMPLE_LAST leaves it idle after receiving. -/
theorem onlyTheEighthSampleEndsAByte : Obligations.OnlyTheEighthSampleEndsAByte := by
  intro o s t q l hi h hreceiving hidle
  obtain ⟨u, rfl, hrecv, -⟩ := receiverTick_of_tickWith hi h
  have hidle : u.framing = .idle := hidle
  cases hrecv with
  | nothing hsame => exact absurd (hidle.symm.trans (hsame.framing.trans hreceiving)) (by decide)
  | edge _ hrun hsame => exact absurd (hidle.symm.trans (hsame.framing.trans (framing_execEdge hrun))) (by decide)
  | sampleMid _ hrun hsame =>
    exact absurd (hidle.symm.trans (hsame.framing.trans ((framing_execSampleMid hrun).trans hreceiving))) (by decide)
  | @sampleLast v hmem hrun hsame =>
    obtain ⟨-, -, hpushed, hcount⟩ := execSampleLast_byte hrun
    have h7 : s.bitsReceived.val = 7 := congrArg Fin.val (sampleLast_enabled.mp hmem).2.2
    refine ⟨v.partialByte, hsame.pushed.trans hpushed, hsame.partialByte, ?count⟩
    case count => rw [closeTick_bitsReceived, hsame.bitsReceived, hcount]; exact congrArg (· + 1) h7
  | sampleLastEdge _ _ _ hrun' hsame => exact absurd (hidle.symm.trans (hsame.framing.trans (framing_execEdge hrun'))) (by decide)

/-- Settles O30: with the eighth sample due and a falling edge, the receiver's tick that leaves nothing enabled is SAMPLE_LAST and
then EDGE; the level sampled is 0. -/
theorem edgeInTheTickOfTheEighthSample : Obligations.EdgeInTheTickOfTheEighthSample := by
  intro s t q hi hjitter hreceiving h7 hreached hprev h
  rw [exec_tick_eq_tickWith] at h
  obtain ⟨u, rfl, hrecv, hend⟩ := receiverTick_of_tickWith hi h
  have hu : u.params = s.params := (tickWith_params h :)
  have hnone := enabled_nil_of_loopEnded hend (hu ▸ hjitter)
  have h7 : s.bitsReceived = 7 := Fin.ext h7
  cases hrecv with
  | nothing hsame =>
    have hsample : Handler.sampleLast ∈ enabledHandlers (dispatchWord (openedTick Config.oracle q false s)) :=
      sampleLast_enabled.mpr ⟨hreceiving, hreached, h7⟩
    exact absurd hsample (hsame.not_enabled hnone (by decide))
  | edge hmem _ _ => exact absurd ((edge_enabled.mp hmem).1.symm.trans hreceiving) (by decide)
  | sampleMid hmem _ _ => exact absurd h7 (sampleMid_enabled.mp hmem).2.2
  | sampleLast hmem hrun hsame =>
    have hsetting := sameSetting_runHandler (h := .sampleLast) hrun
    have hedge := edge_enabled.mpr ⟨framing_execSampleLast hrun, hsetting.prevLevel.trans hprev, hsetting.rxd⟩
    exact absurd hedge (hsame.not_enabled hnone (by decide))
  | @sampleLastEdge v w hmem hrun hmem' hrun' hsame =>
    obtain ⟨hbyte, -, hpushed, -⟩ := execSampleLast_byte hrun
    obtain ⟨-, hpushed', -⟩ := writer_execEdge hrun'
    have hsetting := sameSetting_runHandler (h := .sampleLast) hrun
    have hnow : v.now = s.now := hsetting.now
    have hparams : v.params = s.params := hsetting.params
    refine ⟨hsame.framing.trans (framing_execEdge hrun'), ?count, ?deadline, v.partialByte, ?bit,
      hsame.pushed.trans (hpushed'.trans hpushed)⟩
    all_goals obtain rfl := execEdge_cases hrun'
    case count => exact congrArg Fin.val hsame.bitsReceived
    case deadline =>
      refine hsame.deadline.trans ?_
      simp only [hnow, hparams, timeAdd_firstSampleDelay]
    case bit =>
      rw [hbyte, shiftIn_getLsbD _ _ _ le_rfl, if_pos rfl]
      rfl

/-! ### A reply to a request on an empty queue (R101, R103) -/

/-- How a tick that opens with the queue empty in `a` comes to a reply: it waits, a byte is assembled, that byte is driven. -/
inductive NewByteReply (a u : State) : Prop where
  | waiting (hvalid : u.rspValid = false) (hpushed : u.ghost.pushed = a.ghost.pushed) (hempty : u.empty = true)
  | assembled (b : Byte) (hvalid : u.rspValid = false) (hpushed : u.ghost.pushed = a.ghost.pushed ++ [b])
      (hread : u.buf.read? u.readIndex.val = some b)
  | driven (hpending : u.reqPending = false) (hpushed : u.ghost.pushed = a.ghost.pushed ++ [u.rspData])

theorem NewByteReply.drawn {a u : State} (k : Nat) (h : NewByteReply a u) : NewByteReply a (drawn k u) := by
  cases h with
  | waiting hvalid hpushed hempty => exact .waiting hvalid hpushed hempty
  | assembled b hvalid hpushed hread => exact .assembled b hvalid hpushed hread
  | driven hpending hpushed => exact .driven hpending hpushed

/-- A handler that leaves the queue, the request and the reply alone. -/
theorem NewByteReply.of_same {a u v : State} (h : NewByteReply a u) (hvalid : v.rspValid = u.rspValid) (hdata : v.rspData = u.rspData)
    (hpending : v.reqPending = u.reqPending) (hpushed : v.ghost.pushed = u.ghost.pushed) (hempty : v.empty = u.empty)
    (hbuf : v.buf = u.buf) (hread : v.readIndex = u.readIndex) : NewByteReply a v := by
  cases h with
  | waiting h1 h2 h3 => exact .waiting (hvalid.trans h1) (hpushed.trans h2) (hempty.trans h3)
  | assembled b h1 h2 h3 => exact .assembled b (hvalid.trans h1) (hpushed.trans h2) (by rwa [hbuf, hread])
  | driven h1 h2 => exact .driven (hpending.trans h1) (by rw [hpushed, h2, hdata])

/-- At most one byte is pushed, so the byte driven is the one assembled. -/
theorem NewByteReply.runHandler {a u v : State} {h : Handler} (hn : NewByteReply a u) (hi : Inv u)
    (hmem : h ∈ enabledHandlers (dispatchWord u)) (hrun : runHandler h u = .next v) (hone : ReceiverTick a v) : NewByteReply a v := by
  cases h with
  | edge =>
    obtain rfl := execEdge_cases hrun
    exact hn.of_same rfl rfl rfl rfl rfl rfl rfl
  | sampleMid =>
    obtain ⟨-, rfl⟩ := execSampleMid_eq_next.mp hrun
    exact hn.of_same rfl rfl rfl rfl rfl rfl rfl
  | sampleLast =>
    obtain ⟨-, hbuf, hpushed, -⟩ := execSampleLast_byte hrun
    obtain ⟨-, hvalid, -, hread, -, -⟩ := reader_of_runHandler hrun (by decide)
    have hlength : v.ghost.pushed.length ≤ a.ghost.pushed.length + 1 := by
      obtain ⟨-, h⟩ | ⟨b, -, h⟩ := hone.written <;> simp [h]
    have hfirst : ∀ b, u.ghost.pushed ≠ a.ghost.pushed ++ [b] := fun b hb => by
      simp [hpushed, hb] at hlength
    cases hn with
    | waiting hfresh hsame hempty =>
      refine .assembled v.partialByte (hvalid.trans hfresh) (by rw [hpushed, hsame]) ?_
      rw [hbuf, hread, ← hi.queue.emptyMeets hempty, Memory.read?_write_same]
    | assembled b _ hb _ => exact absurd hb (hfirst b)
    | driven _ hb => exact absurd hb (hfirst _)
  | reply =>
    obtain ⟨hpending, hbyte⟩ := reply_enabled.mp hmem
    obtain ⟨c, -, hc, rfl⟩ := execReply_cases hrun
    cases hn with
    | waiting _ _ hempty => exact absurd (hempty.symm.trans hbyte) (by decide)
    | assembled b _ hpushed hread =>
      obtain rfl : b = c := Option.some.inj (hread.symm.trans hc)
      exact .driven rfl hpushed
    | driven hdone _ => exact absurd (hdone.symm.trans hpending) (by decide)

/-- Settles O36: a reply in a tick that opens with the queue empty is the last stage of three. -/
theorem requestOnEmptyQueueWaitsForTheNextByte : Obligations.RequestOnEmptyQueueWaitsForTheNextByte := by
  intro o s t q l hi h hempty hvalid
  have hopen := inv_openedTick hi o q l
  obtain ⟨u, rfl, ⟨-, -, hn⟩, -⟩ := tickWith_rule
    (Q := fun u => Inv u ∧ (∃ hs, ReceiverRan (openedTick o q l s) hs u) ∧ NewByteReply (openedTick o q l s) u)
    ⟨hopen, ⟨[], .done (.refl _)⟩, .waiting rfl rfl hempty⟩
    (fun k u ⟨hi, ⟨hs, hran⟩, hn⟩ => ⟨hi.drawn k, ⟨hs, hran.same (sameReceiver_drawn k u)⟩, hn.drawn k⟩)
    (fun h u v ⟨hi, ⟨_, hran⟩, hn⟩ hmem hrun => by
      obtain ⟨hs, hran⟩ := hran.runHandler hmem hrun
      exact ⟨hi.handler hmem hrun, ⟨hs, hran⟩, hn.runHandler hi hmem hrun (hran.cases_of_inv hopen)⟩) h
  have hvalid : u.rspValid = true := hvalid
  cases hn with
  | waiting hfresh _ _ => exact absurd (hfresh.symm.trans hvalid) (by decide)
  | assembled _ hfresh _ _ => exact absurd (hfresh.symm.trans hvalid) (by decide)
  | driven _ hpushed => exact hpushed

/-! ### The time a byte takes (R84, R143) -/

/-- While receiving, the samples taken and the distance of the deadline give the time since the edge. -/
theorem timeSub_t0 {s : State} (hi : Inv s) (hreceiving : s.framing = .receiving) :
    timeSub s.params.timeW s.now s.ghost.t0 = s.bitsReceived.val * s.params.bitPeriod +
      timeSub s.params.timeW (timeAdd s.params.timeW s.now (firstSampleDelay s.params)) s.nextSampleDeadline := by
  have hgrid : s.nextSampleDeadline = timeAdd s.params.timeW (timeAdd s.params.timeW s.ghost.t0 (firstSampleDelay s.params))
      (s.bitsReceived.val * s.params.bitPeriod) := by
    rw [timeAdd_assoc, hi.receiver.deadlineOnGrid hreceiving, Nat.add_assoc]; rfl
  have hnear := hi.receiver.deadlineNear hreceiving
  have hcount := Nat.mul_le_mul_right s.params.bitPeriod (hi.receiver.countReceiving hreceiving)
  have hdelay : firstSampleDelay s.params = 3 * s.params.bitPeriod / 2 := rfl
  obtain ⟨-, hwidth, hrange, -⟩ := hi.legal
  have hhalf := two_pow_half (w := s.params.timeW) (by omega)
  rw [← timeSub_shift _ s.now s.ghost.t0 (firstSampleDelay s.params)]
  apply timeSub_eq_of_timeAdd
  · omega
  · rw [timeAdd_mod, ← timeAdd_assoc, ← hgrid, timeAdd_timeSub _ (timeAdd_lt _ _ _)]

/-- Settles O32: at a tick's end the invariant bounds the samples taken and the deadline's distance. -/
theorem aByteEndsInBoundedTime : Obligations.AByteEndsInBoundedTime := by
  intro o s t q l hi h hreceiving
  have hi' := inv_tickWith hi h
  have hnear := hi'.receiver.deadlineNear hreceiving
  have hcount := Nat.mul_le_mul_right t.params.bitPeriod (hi'.receiver.countReceiving hreceiving)
  have hdelay : firstSampleDelay t.params = 3 * t.params.bitPeriod / 2 := rfl
  rw [← tickWith_params h, timeSub_t0 hi' hreceiving]
  omega

end Sys2Proof
end

section
/-!
Runs of the output queue (43_output_queue.md R92 to R96), and the order of service beside it (40_dispatch.md R67).
-/

namespace Sys2Proof

open Machine

/-! ### Many PUSHes, many POPs -/

theorem pushAll_append (bs cs : List Byte) (s : State) : pushAll (bs ++ cs) s = pushAll cs (pushAll bs s) := by
  induction bs generalizing s with
  | nil => rfl
  | cons b bs ih => exact ih (push b s)

theorem queueInv_pushAll {s : State} (hq : QueueInv s) (bs : List Byte) : QueueInv (pushAll bs s) := by
  induction bs generalizing s with
  | nil => exact hq
  | cons b bs ih => exact ih (hq.push b)

theorem length_unreadBytes (s : State) : (unreadBytes s).length = unread s := by simp [unreadBytes]

/-- While there is room, the bytes pushed stand behind the unread ones, in order. -/
theorem unreadBytes_pushAll {s : State} (hq : QueueInv s) (bs : List Byte) (hroom : unread s + bs.length ≤ 10) :
    unreadBytes (pushAll bs s) = unreadBytes s ++ bs.map some := by
  induction bs generalizing s with
  | nil => simp [pushAll]
  | cons b bs ih =>
    rw [List.length_cons] at hroom
    have hnotFull : unread s ≠ 10 := by omega
    have hone : unread (push b s) = unread s + 1 := by rw [unread_push hq.emptyMeets, if_neg hnotFull]
    rw [pushAll, ih (hq.push b) (by omega), unreadBytes_push hq.emptyMeets hnotFull, List.append_assoc]
    rfl

/-- POPs give the unread bytes in order, and leave the queue empty after the last. -/
theorem popMany_unreadBytes {s : State} (hq : QueueInv s) {bs : List Byte} (hbytes : unreadBytes s = bs.map some) :
    ∃ t, popMany bs.length s = .next (bs, t) ∧ t.empty = true := by
  have hlength : unread s = bs.length := by rw [← length_unreadBytes, hbytes, List.length_map]
  induction bs generalizing s with
  | nil => exact ⟨s, rfl, unread_eq_zero.mp hlength⟩
  | cons b bs ih =>
    obtain ⟨u, hpop⟩ := pop_goes_on hq (unread_pos_iff.mp (by rw [hlength]; exact Nat.succ_pos _))
    have hhead := unreadBytes_pop hq.emptyMeets hpop
    rw [hbytes, List.map_cons, List.cons.injEq, Option.some.injEq] at hhead
    obtain ⟨rfl, hrest⟩ := hhead
    obtain ⟨t, hmany, ht⟩ := ih (hq.pop hpop) hrest.symm (by rw [← length_unreadBytes, ← hrest, List.length_map])
    exact ⟨t, by rw [List.length_cons, popMany, hpop, andThen_next, hmany, andThen_next], ht⟩

theorem unreadBytes_of_empty {s : State} (he : s.empty = true) : unreadBytes s = [] :=
  List.length_eq_zero_iff.mp ((length_unreadBytes s).trans (unread_eq_zero.mpr he))

/-- Settles O39: the bytes pushed into an empty queue are its unread bytes. -/
theorem queueReturnsBytesInOrder : Obligations.QueueReturnsBytesInOrder := by
  intro s bs hq he hlength
  have hbytes : unreadBytes (pushAll bs s) = bs.map some := by
    rw [unreadBytes_pushAll hq bs (by rw [unread_eq_zero.mpr he]; omega), unreadBytes_of_empty he, List.nil_append]
  exact ⟨by rw [← length_unreadBytes, hbytes, List.length_map], popMany_unreadBytes (queueInv_pushAll hq bs) hbytes⟩

/-! ### The overrun (R94, R96) -/

/-- A PUSH into a full queue leaves the byte pushed as the only unread one. -/
theorem unreadBytes_push_full {s : State} (hq : QueueInv s) (hfull : unread s = 10) (b : Byte) : unreadBytes (push b s) = [some b] := by
  have hwrite := writeIndex_eq hq.emptyMeets
  have hring : ringAt s.readIndex (unread s) = s.readIndex.val % 10 := by rw [hfull, ringAt, Nat.add_mod_right]
  rw [unreadBytes, unread_push hq.emptyMeets, if_pos hfull]
  simp [unreadAt_push, hwrite, hring]

/-- Settles O40: the queue is full, and the one unread byte after the PUSH is the byte pushed. -/
theorem overrunLeavesOnlyTheNewestByte : Obligations.OverrunLeavesOnlyTheNewestByte := by
  intro s b hq he hmeet
  have hfull : unread s = 10 := by rw [unread, if_neg (by simp [he]), if_pos hmeet]
  have hread : (push b s).buf.read? s.readIndex.val = some b := by rw [← hmeet, push_buf, Memory.read?_write_same]
  have hone : unread (push b s) = 1 := by rw [unread_push hq.emptyMeets, if_pos hfull]
  have hpop := pop_of_byte (push_empty b s) hread
  have hempty := unread_pop (hq.push b).emptyMeets hpop
  exact ⟨push b s, _, exec_push_eq_next b s, hread, fun a ha => Memory.read?_write_other _ _ a b (hmeet ▸ ha), ringNext_val _, rfl,
    hone, hpop, rfl, unread_eq_zero.mp (by omega)⟩

/-- Settles O41: ten bytes fill the queue, the eleventh is alone after its PUSH, and the others stand behind it. -/
theorem overrunDeliversFromTheEleventhByte : Obligations.OverrunDeliversFromTheEleventhByte := by
  intro s bs hq he hmore hless
  obtain ⟨b, rest, hdrop⟩ : ∃ b rest, bs.drop 10 = b :: rest := List.exists_cons_of_length_pos (by rw [List.length_drop]; omega)
  have hten : (bs.take 10).length = 10 := List.length_take_of_le (by omega)
  have hsplit : bs = bs.take 10 ++ b :: rest := by rw [← hdrop, List.take_append_drop]
  generalize bs.take 10 = first at hten hsplit
  subst hsplit
  rw [List.length_append, hten, List.length_cons] at hless
  have hfull : unread (pushAll first s) = 10 := by
    rw [← length_unreadBytes, unreadBytes_pushAll hq first (by rw [unread_eq_zero.mpr he]; omega), unreadBytes_of_empty he,
      List.nil_append, List.length_map, hten]
  have hq' := queueInv_pushAll hq first
  have halone := unreadBytes_push_full hq' hfull b
  have hone : unread (push b (pushAll first s)) = 1 := by rw [← length_unreadBytes, halone]; rfl
  have hbytes : unreadBytes (pushAll (first ++ b :: rest) s) = (b :: rest).map some := by
    rw [pushAll_append, pushAll, unreadBytes_pushAll (hq'.push b) rest (by omega), halone]
    rfl
  rw [List.length_append, hten, Nat.add_sub_cancel_left, hdrop]
  exact popMany_unreadBytes (queueInv_pushAll hq _) hbytes

/-! ### The order of service (R67) -/

/-- REPLY and a handler that leaves the reader's side of the queue reach the same state in either order. -/
theorem reply_commutes {h : Handler} {s u : State} (hrun : runHandler h s = .next u) (hbuf : u.buf = s.buf)
    (hread : u.readIndex = s.readIndex) (hempty : u.empty = s.empty)
    (hnext : ∀ v w, execReply s = .next v → execReply u = .next w → ∃ x, runHandler h v = .next x ∧ eraseGhost x = eraseGhost w) :
    mapNext eraseGhost (andThen (runHandler h s) execReply) = mapNext eraseGhost (andThen (execReply s) (runHandler h)) := by
  rw [hrun, andThen_next]
  have hboth := execReply_both hbuf hread hempty hnext
  revert hboth
  generalize execReply s = x
  generalize execReply u = y
  intro hboth
  cases hboth with
  | next hx =>
    obtain ⟨z, hz, heq⟩ := hx
    rw [andThen_next, hz]
    exact congrArg Host.Outcome.next heq.symm
  | fault r => rfl
  | refused r => rfl

theorem edge_commutes_with_reply (s : State) :
    mapNext eraseGhost (andThen (exec .edge s) (exec .reply)) = mapNext eraseGhost (andThen (exec .reply s) (exec .edge)) := by
  refine reply_commutes (h := .edge) (execEdge_eq_next s) rfl rfl rfl fun v w hv hw => ⟨_, execEdge_eq_next v, ?_⟩
  obtain ⟨b, -, hb, rfl⟩ := execReply_cases hv
  obtain ⟨b', -, hb', rfl⟩ := execReply_cases hw
  obtain rfl : b = b' := Option.some.inj (hb.symm.trans hb')
  rfl

theorem sampleMid_commutes_with_reply {s : State} (h8 : s.bitsReceived.val < 8) :
    mapNext eraseGhost (andThen (exec .sampleMid s) (exec .reply)) =
      mapNext eraseGhost (andThen (exec .reply s) (exec .sampleMid)) := by
  refine reply_commutes (h := .sampleMid) (execSampleMid_eq_next.mpr ⟨h8, rfl⟩) rfl rfl rfl fun v w hv hw => ?_
  obtain ⟨b, -, hb, rfl⟩ := execReply_cases hv
  obtain ⟨b', -, hb', rfl⟩ := execReply_cases hw
  obtain rfl : b = b' := Option.some.inj (hb.symm.trans hb')
  exact ⟨_, execSampleMid_eq_next.mpr ⟨h8, rfl⟩, rfl⟩

theorem ringNext_injective : Function.Injective ringNext := by
  intro i j; revert i j; decide

/-- The state after a SAMPLE_LAST with the count below eight (R79). -/
def afterSampleLast (s : State) : State :=
  logEvent (.sampleLast (shiftIn s.partialByte s.rxd)) (push (shiftIn s.partialByte s.rxd)
    { s with partialByte := shiftIn s.partialByte s.rxd, bitsReceived := s.bitsReceived + 1, framing := .idle })

theorem execSampleLast_of_lt {s : State} (h8 : s.bitsReceived.val < 8) : execSampleLast s = .next (afterSampleLast s) := by
  have hcount : s.bitsReceived + 1 = ⟨s.bitsReceived.val + 1, Nat.succ_lt_succ h8⟩ :=
    Fin.ext (Fin.val_add_one_of_lt' (Nat.succ_lt_succ h8))
  rw [execSampleLast_eq_next, afterSampleLast, hcount]
  exact ⟨h8, rfl⟩

/-- The oldest byte of a queue that has one. -/
theorem exists_oldest {s : State} (hq : QueueInv s) (he : s.empty = false) : ∃ c, s.buf.read? s.readIndex.val = some c := by
  obtain ⟨u, hu⟩ := pop_goes_on hq he
  obtain ⟨-, c, hc, -⟩ := pop_eq_next.mp hu
  exact ⟨c, hc⟩

theorem reply_then_sampleLast {s : State} {c : Byte} (h8 : s.bitsReceived.val < 8) (he : s.empty = false)
    (hc : s.buf.read? s.readIndex.val = some c) :
    andThen (exec .reply s) (exec .sampleLast) = .next (afterSampleLast (afterReply c s)) := by
  rw [exec_reply_eq_execReply, execReply_of_byte he hc, andThen_next]
  exact execSampleLast_of_lt h8

theorem sampleLast_then_reply {s : State} {c : Byte} (h8 : s.bitsReceived.val < 8)
    (hc : (afterSampleLast s).buf.read? s.readIndex.val = some c) :
    andThen (exec .sampleLast s) (exec .reply) = .next (afterReply c (afterSampleLast s)) := by
  rw [exec_sampleLast_eq_execSampleLast, execSampleLast_of_lt h8, andThen_next]
  exact execReply_of_byte rfl hc

/-- With a byte unread and room for another, SAMPLE_LAST writes another element than REPLY reads. -/
theorem sampleLast_commutes_with_reply {s : State} (hq : QueueInv s) (h8 : s.bitsReceived.val < 8) (hsome : 1 ≤ unread s)
    (hroom : unread s ≤ 9) : ∃ t u, andThen (exec .sampleLast s) (exec .reply) = .next t ∧
      andThen (exec .reply s) (exec .sampleLast) = .next u ∧ eraseGhost t = eraseGhost u := by
  have he : s.empty = false := unread_pos_iff.mp hsome
  have hapart : s.readIndex ≠ s.writeIndex := fun hmeet => by
    rw [unread, if_neg (by simp [he]), if_pos hmeet.symm] at hroom
    omega
  obtain ⟨c, hc⟩ := exists_oldest hq he
  have hc' : (afterSampleLast s).buf.read? s.readIndex.val = some c :=
    (Memory.read?_write_other _ _ _ _ fun h => hapart (Fin.ext h)).trans hc
  refine ⟨_, _, sampleLast_then_reply h8 hc', reply_then_sampleLast h8 he hc, ?same⟩
  case same =>
    have hnonempty : decide (ringNext s.readIndex = ringNext s.writeIndex) = false :=
      decide_eq_false fun h => hapart (ringNext_injective h)
    have hempty : (afterReply c (afterSampleLast s)).empty = (afterSampleLast (afterReply c s)).empty := hnonempty
    exact congrArg (fun e => { eraseGhost (afterSampleLast (afterReply c s)) with empty := e }) hempty

/-- Settles O28: EDGE and SAMPLE_MID leave the queue alone, and SAMPLE_LAST beside an unread byte writes elsewhere. -/
theorem orderOfServiceDoesNotMatterUnlessFull : Obligations.OrderOfServiceDoesNotMatterUnlessFull :=
  ⟨edge_commutes_with_reply, fun _ => sampleMid_commutes_with_reply, fun _ => sampleLast_commutes_with_reply⟩

/-- On a full queue REPLY makes room for the byte sampled, which then stands last. -/
theorem reply_then_push_full {s u : State} (hq : QueueInv s) (hfull : unread s = 10) (hpop : pop s = .next u) (b : Byte) :
    unread (push b u) = 10 ∧ (∀ k, k < 9 → unreadAt (push b u) k = unreadAt s (k + 1)) ∧ unreadAt (push b u) 9 = some b := by
  have hu := unread_pop hq.emptyMeets hpop
  have hq' := hq.pop hpop
  have hwrite : u.writeIndex.val = (u.readIndex.val + 9) % 10 := by
    rw [writeIndex_eq hq'.emptyMeets, ringAt, show unread u = 9 by omega]
  refine ⟨by rw [unread_push hq'.emptyMeets, if_neg (by omega)]; omega, fun k hk => ?_, ?_⟩
  · rw [unreadAt_push, hwrite, if_neg (by omega), unreadAt_pop hpop]
  · rw [unreadAt_push, hwrite, if_pos rfl]

/-- Settles O29: REPLY first frees the element SAMPLE_LAST writes; SAMPLE_LAST first writes the element REPLY then reads. -/
theorem orderOfServiceMattersWhenFull : Obligations.OrderOfServiceMattersWhenFull := by
  intro s hq h8 hfull
  have he : s.empty = false := unread_pos_iff.mp (by omega)
  have hmeet : s.writeIndex = s.readIndex := by
    have := writeIndex_eq hq.emptyMeets
    rw [hfull, ringAt, Nat.add_mod_right, Nat.mod_eq_of_lt s.readIndex.isLt] at this
    exact Fin.ext this
  obtain ⟨c, hc⟩ := exists_oldest hq he
  refine ⟨⟨_, reply_then_sampleLast h8 he hc, ?oldest, ?_⟩, ⟨_, sampleLast_then_reply h8 ?newest, rfl, ?empty⟩⟩
  case oldest => rw [unreadAt, ringAt_zero, hc]; rfl
  case newest => rw [← hmeet]; exact Memory.read?_write_same _ _ _
  case empty => exact decide_eq_true (congrArg ringNext hmeet.symm)
  exact reply_then_push_full hq hfull (pop_of_byte he hc) (shiftIn s.partialByte s.rxd)

end Sys2Proof
end

section
/-!
Time and the serial frame (60_exceptions.md R118, 30_encoding.md R45 to R47, R61, 70_reset_and_hazards.md R142): the modular comparison,
the waveform of FRAME, and the reception of a frame tick by tick.
-/

namespace Sys2Proof

open Machine

/-! ### The modular comparison -/

/-- Settles O45: a deadline behind is reached, and one ahead is not, each by its distance below half the range. -/
theorem reachedAgreesWithUnboundedTime : Obligations.ReachedAgreesWithUnboundedTime := by
  intro w now d hw hbehind hahead
  obtain hle | hlt := le_or_gt d now
  · have hnow : now % 2 ^ w = timeAdd w (d % 2 ^ w) (now - d) := by
      rw [timeAdd_mod_left, timeAdd, Nat.add_sub_cancel' hle]
    simp only [reached_behind hnow hw (by omega), hle]
  · have hd : d % 2 ^ w = timeAdd w (now % 2 ^ w) (d - now) := by
      rw [timeAdd_mod_left, timeAdd, Nat.add_sub_cancel' hlt.le]
    simp [not_reached_ahead hw hd (by omega) (by omega), hlt]

/-! ### The waveform of a frame -/

/-- The level of the `k`-th bit period of a frame: start bit, eight data bits least significant first, stop bit (R45). -/
def frameBit (b : Byte) (k : Nat) : Bool := if k = 0 then false else if k < 9 then b.getLsbD (k - 1) else true

theorem frameLevel_eq_frameBit {p : Nat} (hp : 0 < p) (b : Byte) (j : Nat) : frameLevel p b j = frameBit b (j / p) := by
  simp only [frameLevel, frameBit, Nat.div_eq_zero_iff_lt hp, Nat.div_lt_iff_lt_mul hp]

/-- A waveform that is level over each bit period, period by period. -/
theorem map_range_mul {p : Nat} {f g : Nat → Bool} (hlevel : ∀ j, f j = g (j / p)) (n : Nat) :
    (List.range (n * p)).map f = (List.range n).flatMap fun k => List.replicate p (g k) := by
  induction n with
  | zero => simp
  | succ n ih =>
    have hlast : (List.range p).map (fun i => f (n * p + i)) = List.replicate p (g n) := by
      rw [List.map_eq_replicate_iff.mpr, List.length_range]
      intro i hi
      have hi := List.mem_range.mp hi
      rw [hlevel, Nat.mul_comm, Nat.mul_add_div (by omega), Nat.div_eq_of_lt hi, Nat.add_zero]
    rw [Nat.succ_mul, List.range_add, List.map_append, ih, List.map_map, List.range_succ, List.flatMap_append]
    simpa [Function.comp_def] using hlast

/-- Settles O43: bit period by bit period both sides hold the frame's ten levels. -/
theorem frameStatementIsTheWaveform : Obligations.FrameStatementIsTheWaveform := by
  intro p b
  obtain rfl | hp := Nat.eq_zero_or_pos p
  · simp [statementLevels]
  · rw [map_range_mul (frameLevel_eq_frameBit hp b) 10]
    simp [statementLevels, frameBit, List.range_succ]

/-! ### One tick of a reception, without jitter -/

/-- A step of a stimulus word without a request is a tick that completes, on a state of the invariant. -/
theorem exists_step_of_level {s : State} {l : Bool} {rest : List OpWord} (hi : Inv s) (hin : s.inputs = stimulusWord false l :: rest) :
    ∃ t, step s = .next t ∧ Inv { s with inputs := rest } ∧ tickWith Config.oracle false l { s with inputs := rest } = .next t := by
  have hi' : Inv { s with inputs := rest } := dropInput_eq hin ▸ hi.dropInput
  obtain ⟨t, ht⟩ := tickWith_goes_on hi' Config.oracle false l (by simp)
  exact ⟨t, ((stepRunsTheDecodedOperation s rest).1 false l hin).trans ht, hi', ht⟩

/-- A falling edge while idle starts a byte. -/
theorem tickWith_of_edge {o : Oracle} {s t : State} (hi : Inv s) (hjitter : s.params.jitterMax = 0) (hidle : s.framing = .idle)
    (hprev : s.prevLevel = true) (h : tickWith o false false s = .next t) :
    t.framing = .receiving ∧ t.bitsReceived.val = 0 ∧ t.ghost.pushed = s.ghost.pushed ∧
      t.nextSampleDeadline = timeAdd s.params.timeW s.now (firstSampleDelay s.params) := by
  obtain ⟨u, rfl, ⟨hs, hran⟩, hend⟩ := tickWith_receiver h
  have hu : u.params = s.params := (tickWith_params h :)
  have hnone := enabled_nil_of_loopEnded hend (hu ▸ hjitter)
  obtain hsame | ⟨v, -, hrun, hsame⟩ := hran.of_idle hi.legal hidle
  · have hedge : Handler.edge ∈ enabledHandlers (dispatchWord (openedTick o false false s)) := edge_enabled.mpr ⟨hidle, hprev, rfl⟩
    exact absurd hedge (hsame.not_enabled hnone (by decide))
  · obtain rfl := execEdge_cases hrun
    exact ⟨hsame.framing, congrArg Fin.val hsame.bitsReceived, hsame.pushed, hsame.deadline⟩

/-- Between samples the receiver waits. -/
theorem tickWith_of_ahead {o : Oracle} {l : Bool} {s t : State} (hreceiving : s.framing = .receiving)
    (hahead : reached s.params.timeW s.now s.nextSampleDeadline = false) (h : tickWith o false l s = .next t) :
    t.framing = .receiving ∧ t.bitsReceived = s.bitsReceived ∧ t.partialByte = s.partialByte ∧
      t.ghost.pushed = s.ghost.pushed ∧ t.nextSampleDeadline = s.nextSampleDeadline := by
  obtain ⟨u, rfl, ⟨hs, hran⟩, -⟩ := tickWith_receiver h
  have hdue : due (openedTick o false l s) = false := Bool.and_eq_false_imp.mpr fun _ => hahead
  have hsame := hran.same_of_ahead hreceiving hdue
  exact ⟨hsame.framing.trans hreceiving, hsame.bitsReceived, hsame.partialByte, hsame.pushed, hsame.deadline⟩

/-- A due sample before the eighth shifts the line's level in and moves the deadline on. -/
theorem tickWith_of_sampleMid {o : Oracle} {l : Bool} {s t : State} (hi : Inv s) (hjitter : s.params.jitterMax = 0)
    (hreceiving : s.framing = .receiving) (hreached : reached s.params.timeW s.now s.nextSampleDeadline = true)
    (h7 : s.bitsReceived ≠ 7) (h : tickWith o false l s = .next t) :
    t.framing = .receiving ∧ t.bitsReceived.val = s.bitsReceived.val + 1 ∧ t.partialByte = shiftIn s.partialByte l ∧
      t.ghost.pushed = s.ghost.pushed ∧ t.nextSampleDeadline = timeAdd s.params.timeW s.nextSampleDeadline s.params.bitPeriod := by
  obtain ⟨u, rfl, hrecv, hend⟩ := receiverTick_of_tickWith hi h
  have hu : u.params = s.params := (tickWith_params h :)
  have hnone := enabled_nil_of_loopEnded hend (hu ▸ hjitter)
  cases hrecv with
  | nothing hsame =>
    have hsample : Handler.sampleMid ∈ enabledHandlers (dispatchWord (openedTick o false l s)) :=
      sampleMid_enabled.mpr ⟨hreceiving, hreached, h7⟩
    exact absurd hsample (hsame.not_enabled hnone (by decide))
  | edge hmem _ _ => exact absurd ((edge_enabled.mp hmem).1.symm.trans hreceiving) (by decide)
  | sampleMid _ hrun hsame =>
    obtain ⟨hbyte, hcount, hdeadline⟩ := execSampleMid_bit hrun
    exact ⟨hsame.framing.trans ((framing_execSampleMid hrun).trans hreceiving), (congrArg Fin.val hsame.bitsReceived).trans hcount,
      hsame.partialByte.trans hbyte, hsame.pushed.trans (writer_execSampleMid hrun).2, hsame.deadline.trans hdeadline⟩
  | sampleLast hmem _ _ => exact absurd (sampleLast_enabled.mp hmem).2.2 h7
  | sampleLastEdge hmem _ _ _ _ => exact absurd (sampleLast_enabled.mp hmem).2.2 h7

/-- The eighth sample with no falling edge beside it ends the byte. -/
theorem tickWith_of_sampleLast {o : Oracle} {l : Bool} {s t : State} (hi : Inv s) (hjitter : s.params.jitterMax = 0)
    (hreceiving : s.framing = .receiving) (hreached : reached s.params.timeW s.now s.nextSampleDeadline = true)
    (h7 : s.bitsReceived = 7) (hlevel : s.prevLevel = l) (h : tickWith o false l s = .next t) :
    t.framing = .idle ∧ t.partialByte = shiftIn s.partialByte l ∧ t.ghost.pushed = s.ghost.pushed ++ [shiftIn s.partialByte l] := by
  obtain ⟨u, rfl, hrecv, hend⟩ := receiverTick_of_tickWith hi h
  have hu : u.params = s.params := (tickWith_params h :)
  have hnone := enabled_nil_of_loopEnded hend (hu ▸ hjitter)
  cases hrecv with
  | nothing hsame =>
    have hsample : Handler.sampleLast ∈ enabledHandlers (dispatchWord (openedTick o false l s)) :=
      sampleLast_enabled.mpr ⟨hreceiving, hreached, h7⟩
    exact absurd hsample (hsame.not_enabled hnone (by decide))
  | edge hmem _ _ => exact absurd ((edge_enabled.mp hmem).1.symm.trans hreceiving) (by decide)
  | sampleMid hmem _ _ => exact absurd h7 (sampleMid_enabled.mp hmem).2.2
  | sampleLast _ hrun hsame =>
    obtain ⟨hbyte, -, hpushed, -⟩ := execSampleLast_byte hrun
    rw [hbyte] at hpushed
    exact ⟨hsame.framing.trans (framing_execSampleLast hrun), hsame.partialByte.trans hbyte, hsame.pushed.trans hpushed⟩
  | sampleLastEdge _ hrun hmem' _ _ =>
    have hsetting := sameSetting_runHandler (h := .sampleLast) hrun
    obtain ⟨-, hprev, hline⟩ := edge_enabled.mp hmem'
    have hprev : s.prevLevel = true := hsetting.prevLevel.symm.trans hprev
    have hline : l = false := hsetting.rxd.symm.trans hline
    rw [hlevel, hline] at hprev
    cases hprev

/-! ### The reception of a frame (R142) -/

/-- The state `j` ticks after the frame's start edge came in state `s₀`: `c` samples are in, the next is due at its place on the grid,
and the bits sampled are the byte's. -/
structure Receiving (s₀ : State) (b : Byte) (j c : Nat) (s : State) : Prop where
  inv : Inv s
  params : s.params = s₀.params
  now : s.now = timeAdd s₀.params.timeW s₀.now j
  framing : s.framing = .receiving
  count : s.bitsReceived.val = c
  deadline : s.nextSampleDeadline = timeAdd s₀.params.timeW s₀.now (firstSampleDelay s₀.params + c * s₀.params.bitPeriod)
  notLate : j ≤ firstSampleDelay s₀.params + c * s₀.params.bitPeriod
  bits : ∀ k, k < c → s.partialByte.getLsbD (7 - k) = b.getLsbD (c - 1 - k)
  level : s.prevLevel = frameLevel s₀.params.bitPeriod b (j - 1)
  pushed : s.ghost.pushed = s₀.ghost.pushed

/-- The line at the sample of bit `c` holds that bit, and held it in the tick before (R47). -/
theorem frameLevel_at_sample {p : Params} (hp : 2 ≤ p.bitPeriod) (b : Byte) {c : Nat} (hc : c ≤ 7) :
    frameLevel p.bitPeriod b (firstSampleDelay p + c * p.bitPeriod) = b.getLsbD c ∧
      frameLevel p.bitPeriod b (firstSampleDelay p + c * p.bitPeriod - 1) = b.getLsbD c := by
  have hdelay : firstSampleDelay p = 3 * p.bitPeriod / 2 := rfl
  have hslot : ∀ i, p.bitPeriod ≤ i → i < 2 * p.bitPeriod → frameLevel p.bitPeriod b (i + c * p.bitPeriod) = b.getLsbD c := by
    intro i hlow hhigh
    have hone : i / p.bitPeriod = 1 := Nat.div_eq_of_lt_le (by omega) (by omega)
    rw [frameLevel_eq_frameBit (by omega), Nat.add_mul_div_right _ _ (by omega), hone, frameBit, if_neg (by omega), if_pos (by omega),
      Nat.add_sub_cancel_left]
  refine ⟨hslot _ (by omega) (by omega), ?_⟩
  rw [Nat.sub_add_comm (by omega)]
  exact hslot _ (by omega) (by omega)

/-- One tick of the reception: the receiver waits, takes a bit, or ends the byte. -/
theorem Receiving.tick {s₀ s t : State} {b : Byte} {j c : Nat} {o : Oracle} (hr : Receiving s₀ b j c s)
    (hjitter : s₀.params.jitterMax = 0) (hj : 1 ≤ j) (h : tickWith o false (frameLevel s₀.params.bitPeriod b j) s = .next t) :
    (∃ c', Receiving s₀ b (j + 1) c' t) ∨
      (j = firstSampleDelay s₀.params + 7 * s₀.params.bitPeriod ∧ t.framing = .idle ∧ t.partialByte = b ∧
        t.ghost.pushed = s₀.ghost.pushed ++ [b]) := by
  obtain ⟨hi, hparams, hnow, hframing, hcount, hdeadline, hnotLate, hbits, hlevel, hpushed⟩ := hr
  have hc : c ≤ 7 := hcount ▸ hi.receiver.countReceiving hframing
  have hi' := inv_tickWith hi h
  have hparams' : t.params = s₀.params := (tickWith_params h).trans hparams
  have hnow' : t.now = timeAdd s₀.params.timeW s₀.now (j + 1) := by
    rw [tickWith_now h, hnow, hparams, timeAdd_assoc]
  have hlevel' := tickWith_prevLevel h
  obtain ⟨hp, hwidth, hrange, -⟩ : paramsLegal s₀.params := hparams ▸ hi.legal
  have hdelay : firstSampleDelay s₀.params = 3 * s₀.params.bitPeriod / 2 := rfl
  have hgrid : c * s₀.params.bitPeriod ≤ 7 * s₀.params.bitPeriod := Nat.mul_le_mul_right _ hc
  obtain hbefore | rfl := hnotLate.lt_or_eq
  · have hahead : reached s.params.timeW s.now s.nextSampleDeadline = false := by
      rw [hparams, hnow, hdeadline]
      refine not_reached_ahead (by omega) (x := firstSampleDelay s₀.params + c * s₀.params.bitPeriod - j) ?_ (by omega) (by omega)
      rw [timeAdd_assoc, Nat.add_sub_cancel' hnotLate]
    obtain ⟨hframing', hcount', hpartial', hpushed', hdeadline'⟩ := tickWith_of_ahead hframing hahead h
    exact .inl ⟨c, hi', hparams', hnow', hframing', by rw [hcount', hcount], hdeadline'.trans hdeadline, hbefore,
      by rw [hpartial']; exact hbits, hlevel', hpushed'.trans hpushed⟩
  obtain ⟨hbit, hbit'⟩ := frameLevel_at_sample hp b hc
  have hreached : reached s.params.timeW s.now s.nextSampleDeadline = true := by
    rw [hnow, hdeadline, reached_iff, timeSub_self]
    exact Nat.two_pow_pos _
  have hsampled : ∀ k, k < c + 1 → (shiftIn s.partialByte (b.getLsbD c)).getLsbD (7 - k) = b.getLsbD (c - k) := by
    intro k hk
    rw [shiftIn_getLsbD _ _ _ (Nat.sub_le 7 k)]
    split
    · rw [show k = 0 by omega, Nat.sub_zero]
    · rw [show 7 - k + 1 = 7 - (k - 1) by omega, hbits (k - 1) (by omega), show c - 1 - (k - 1) = c - k by omega]
  rw [hbit] at h
  by_cases h7 : c = 7
  · subst h7
    have hbyte : shiftIn s.partialByte (b.getLsbD 7) = b := eq_of_agree_eight hsampled
    obtain ⟨hidle, hpartial, hpush⟩ := tickWith_of_sampleLast hi (hparams ▸ hjitter) hframing hreached (Fin.ext hcount)
      (hlevel.trans hbit') h
    rw [hbyte] at hpartial hpush
    exact .inr ⟨rfl, hidle, hpartial, hpushed ▸ hpush⟩
  · have hne : s.bitsReceived ≠ 7 := fun heq => h7 (hcount.symm.trans (congrArg Fin.val heq))
    obtain ⟨hframing', hcount', hpartial', hpushed', hdeadline'⟩ :=
      tickWith_of_sampleMid hi (hparams ▸ hjitter) hframing hreached hne h
    refine .inl ⟨c + 1, hi', hparams', hnow', hframing', by rw [hcount', hcount], ?deadline, ?notLate, ?bits, hlevel',
      hpushed'.trans hpushed⟩
    case deadline => rw [hdeadline', hdeadline, hparams, timeAdd_assoc, Nat.succ_mul, Nat.add_assoc]
    case notLate => rw [Nat.succ_mul]; omega
    case bits => rw [hpartial']; exact hsampled

theorem run_succ_of_step {s t : State} (hstep : step s = .next t) (n : Nat) :
    Host.Core.run Sys2Proof.core (n + 1) s = Host.Core.run Sys2Proof.core n t := by
  have hcore : Sys2Proof.core.step s = .next t := hstep
  simp only [Host.Core.run, hcore]

/-- The rest of a frame, from tick `j` on, ends in the tick of the eighth sample. -/
theorem run_receiving {s₀ : State} {b : Byte} {rest : List OpWord} (hjitter : s₀.params.jitterMax = 0) {n : Nat} :
    ∀ {s : State} {j c : Nat}, Receiving s₀ b j c s → 1 ≤ j →
      j + n = firstSampleDelay s₀.params + 7 * s₀.params.bitPeriod + 1 →
      s.inputs = (List.range' j n).map (fun i => stimulusWord false (frameLevel s₀.params.bitPeriod b i)) ++ rest →
      ∃ t : State, Host.Core.run Sys2Proof.core n s = .next t ∧ t.framing = .idle ∧ t.partialByte = b ∧
        t.ghost.pushed = s₀.ghost.pushed ++ [b] ∧ t.inputs = rest := by
  induction n with
  | zero =>
    intro s j c hr _ hend _
    have hc : c ≤ 7 := hr.count ▸ hr.inv.receiver.countReceiving hr.framing
    have := Nat.mul_le_mul_right s₀.params.bitPeriod hc
    have := hr.notLate
    omega
  | succ n ih =>
    intro s j c hr hj hend hin
    rw [List.range'_succ, List.map_cons, List.cons_append] at hin
    obtain ⟨t, hstep, hi', htick⟩ := exists_step_of_level hr.inv hin
    have hinputs := tickWith_inputs htick
    have hr' : Receiving s₀ b j c { s with
        inputs := (List.range' (j + 1) n).map (fun i => stimulusWord false (frameLevel s₀.params.bitPeriod b i)) ++ rest } :=
      ⟨hi', hr.params, hr.now, hr.framing, hr.count, hr.deadline,
        hr.notLate, hr.bits, hr.level, hr.pushed⟩
    rw [run_succ_of_step hstep]
    obtain ⟨c', hnext⟩ | ⟨hlast, hidle, hpartial, hpushed⟩ := hr'.tick hjitter hj htick
    · exact ih hnext (by omega) (by omega) hinputs
    · obtain rfl : n = 0 := by omega
      exact ⟨t, rfl, hidle, hpartial, hpushed, hinputs⟩

/-- Settles O44: the start edge begins a reception, and the frame's ticks carry it to its end. -/
theorem aFrameIsReceived : Obligations.AFrameIsReceived := by
  intro s b rest hi hidle hprev hjitter hin
  obtain ⟨hp, -⟩ : paramsLegal s.params := hi.legal
  have hstart : frameLevel s.params.bitPeriod b 0 = false := by rw [frameLevel, if_pos (by omega)]
  rw [frameTicks, List.range_eq_range', List.range'_succ, List.map_cons, List.cons_append, hstart] at hin
  obtain ⟨t, hstep, hi', htick⟩ := exists_step_of_level hi hin
  obtain ⟨hframing, hcount, hpushed, hdeadline⟩ := tickWith_of_edge hi' hjitter hidle hprev htick
  have hr : Receiving s b 1 0 t :=
    ⟨inv_tickWith hi' htick, (tickWith_params htick :), (tickWith_now htick :), hframing, hcount,
      by rw [Nat.zero_mul, Nat.add_zero]; exact hdeadline, by have := firstSampleDelay_ge_three hi.legal; omega,
      fun k hk => absurd hk (Nat.not_lt_zero k), by rw [hstart]; exact tickWith_prevLevel htick, hpushed⟩
  rw [run_succ_of_step hstep]
  exact run_receiving hjitter hr le_rfl (by omega) (tickWith_inputs htick)

end Sys2Proof
end
